-- ==== Sys2Proof/Word.lean ====
section
/-! DEFINITION. The data types of SJMIX: words, octets, 16-word blocks, 128-bit commands (00_scope R8, R9).
A word is a pattern without sign (10_state R35); addition on it wraps modulo 2^32 as the type does (R12). -/

namespace Sys2Proof

/-- One cell of the word memory: a 32-bit pattern (00_scope R8, 10_state R22). -/
abbrev Word := BitVec 32

/-- One cell of the byte memory: an octet (00_scope R8, 10_state R23). -/
abbrev Byte := BitVec 8

/-- A unit of 16 words, the width of the Salsa20/8 core (00_scope R8). -/
abbrev Block := Vector Word 16

/-- One 128-bit request to the block (30_encoding R70). -/
abbrev Command := BitVec 128

end Sys2Proof
end

