-- ==== Sys2Proof/Syntax.lean ====
section
/-! DEFINITION. The six commands, one constructor per row of the opcode table, operands in the order A, B, C
(30_encoding R73, R74). Every operand is an unsigned 32-bit number (R75), so every term is a command the block can be
given. -/

namespace Sys2Proof

/-- SJMIX command set 1.0 (30_encoding R73; 49_command_set_laws R170). -/
inductive Instr where
  /-- Bytes to words: source byte address, destination word address, number of bytes (R101). -/
  | b2w (bsrc wdst nbytes : Word)
  /-- Words to bytes: source word address, destination byte address, number of words (R102). -/
  | w2b (wsrc bdst nwords : Word)
  /-- Forward block copy inside `W` (R121). -/
  | copy (srcPos dstPos len : Word)
  /-- Block exclusive or inside `W` (R122). -/
  | xor (srcPos dstPos len : Word)
  /-- Salsa20/8 on the 16 words at `addr`, in place (R146). -/
  | salsa (addr : Word)
  /-- BlockMix from the X region, through the Y region, back to the X region (R162). -/
  | bmix (xaddr yaddr r : Word)
deriving DecidableEq, Repr

end Sys2Proof
end

