-- ==== Sys2Proof/WellFormed.lean ====
section
/-! DEFINITION. What makes a command word legal (30_encoding R76 to R79) and an assembler line well formed (R81). An
`Instr` needs no check of its own: its operand fields are 32 bits wide by type. -/

namespace Sys2Proof

/-- The mnemonics of 30_encoding R73. -/
inductive Mnemonic where
  | b2w | w2b | copy | xor | salsa | bmix
deriving DecidableEq, Repr

/-- A command in assembler form (R81): a mnemonic and its operands, each a natural number. -/
structure AsmLine where
  mnemonic : Mnemonic
  operands : List Nat
deriving DecidableEq, Repr

/-- How many operands the mnemonic is written with: one for SALSA, three for the others (R81). -/
def Mnemonic.arity : Mnemonic → Nat
  | .salsa => 1
  | .b2w | .w2b | .copy | .xor | .bmix => 3

/-- The mnemonic has its operands and each is below 2^32 (R81). -/
def AsmLine.wellFormed (l : AsmLine) : Bool :=
  l.operands.length == l.mnemonic.arity && l.operands.all (· < 2 ^ 32)

/-- A command word is legal: a defined opcode (R76), RSV zero (R77), and B and C zero under opcode 5 (R78). The fields
are read off as numbers: OP is the low 8 bits, RSV the next 24, B and C the upper 64. -/
abbrev Command.legal (c : Command) : Prop :=
  (1 ≤ c.toNat % 2 ^ 8 ∧ c.toNat % 2 ^ 8 ≤ 6) ∧ c.toNat / 2 ^ 8 % 2 ^ 24 = 0 ∧
    (c.toNat % 2 ^ 8 = 5 → c.toNat / 2 ^ 64 = 0)

end Sys2Proof
end

