-- ==== Sys2Proof/Decode.lean ====
section
/-! DEFINITION. The command encoding (spec/30_encoding.md): fields, decoder (R83), encoder (R71 to R74), the host's view
of both, and the assembler's two directions (R81). -/

namespace Sys2Proof

/-- `OP = cmd[7:0]` (R71). -/
def Command.op (c : Command) : BitVec 8 := c.extractLsb' 0 8

/-- `RSV = cmd[31:8]` (R71). -/
def Command.rsv (c : Command) : BitVec 24 := c.extractLsb' 8 24

/-- `A = cmd[63:32]` (R71). -/
def Command.a (c : Command) : Word := c.extractLsb' 32 32

/-- `B = cmd[95:64]` (R71). -/
def Command.b (c : Command) : Word := c.extractLsb' 64 32

/-- `C = cmd[127:96]` (R71). -/
def Command.c (c : Command) : Word := c.extractLsb' 96 32

/-- Why a word is no command: the three `Illegal` lines of R83, in their order. -/
inductive Illegal where
  /-- `OP = 0x00` or `OP >= 0x07` (R76). -/
  | reservedOpcode
  /-- `RSV` is not 0 (R77). -/
  | reservedBits
  /-- `SALSA` with `B` or `C` not 0 (R78). -/
  | unusedOperand
deriving DecidableEq, Repr

/-- The decode procedure, total on 128-bit words; the first line that applies decides (R83). -/
def decode (cmd : Command) : Except Illegal Instr :=
  if cmd.op = 0x00 ∨ 0x07 ≤ cmd.op then .error .reservedOpcode
  else if cmd.rsv ≠ 0 then .error .reservedBits
  else if cmd.op = 0x05 ∧ (cmd.b ≠ 0 ∨ cmd.c ≠ 0) then .error .unusedOperand
  else if cmd.op = 0x01 then .ok (.b2w cmd.a cmd.b cmd.c)
  else if cmd.op = 0x02 then .ok (.w2b cmd.a cmd.b cmd.c)
  else if cmd.op = 0x03 then .ok (.copy cmd.a cmd.b cmd.c)
  else if cmd.op = 0x04 then .ok (.xor cmd.a cmd.b cmd.c)
  else if cmd.op = 0x05 then .ok (.salsa cmd.a)
  else .ok (.bmix cmd.a cmd.b cmd.c)

/-- A command from its opcode and operands, RSV zero, by the formula of R72: w0 + w1 * 2^32 + w2 * 2^64 + w3 * 2^96. -/
def Command.pack (op : BitVec 8) (a b c : Word) : Command :=
  BitVec.ofNat 128 (op.toNat + a.toNat * 2 ^ 32 + b.toNat * 2 ^ 64 + c.toNat * 2 ^ 96)

/-- The command word of an instruction (R71, R73, R74; for SALSA the unused operands are 0, R78). -/
def encode : Instr → Command
  | .b2w bsrc wdst nbytes => .pack 0x01 bsrc wdst nbytes
  | .w2b wsrc bdst nwords => .pack 0x02 wsrc bdst nwords
  | .copy srcPos dstPos len => .pack 0x03 srcPos dstPos len
  | .xor srcPos dstPos len => .pack 0x04 srcPos dstPos len
  | .salsa addr => .pack 0x05 addr 0 0
  | .bmix xaddr yaddr r => .pack 0x06 xaddr yaddr r

/-- The printed form of R72: four transport words, `w0` first. -/
def Command.ofWords (w0 w1 w2 w3 : Word) : Command :=
  BitVec.ofNat 128 (w0.toNat + w1.toNat * 2 ^ 32 + w2.toNat * 2 ^ 64 + w3.toNat * 2 ^ 96)

/-- The host's view: the instruction the decoder reads from bits `w`, numbered as the opcode table numbers them; bits
from `nbits` up are 0. A command crosses the boundary as one 128-bit quantity (R72), so no byte order enters. -/
def decodeTableWord (nbits w : Nat) : Option Instr :=
  (decode (BitVec.ofNat 128 (w % 2 ^ nbits))).toOption

/-- The mnemonic as R73 spells it. -/
def Mnemonic.name : Mnemonic → String
  | .b2w => "B2W"
  | .w2b => "W2B"
  | .copy => "COPY"
  | .xor => "XOR"
  | .salsa => "SALSA"
  | .bmix => "BMIX"

/-- The assembler: a well-formed line names one command, operands in the order A, B, C (R81). -/
def assemble (l : AsmLine) : Option Instr :=
  if l.wellFormed then
    match l.mnemonic, l.operands with
    | .b2w, [a, b, c] => some (.b2w (.ofNat 32 a) (.ofNat 32 b) (.ofNat 32 c))
    | .w2b, [a, b, c] => some (.w2b (.ofNat 32 a) (.ofNat 32 b) (.ofNat 32 c))
    | .copy, [a, b, c] => some (.copy (.ofNat 32 a) (.ofNat 32 b) (.ofNat 32 c))
    | .xor, [a, b, c] => some (.xor (.ofNat 32 a) (.ofNat 32 b) (.ofNat 32 c))
    | .salsa, [a] => some (.salsa (.ofNat 32 a))
    | .bmix, [a, b, c] => some (.bmix (.ofNat 32 a) (.ofNat 32 b) (.ofNat 32 c))
    | _, _ => none
  else none

/-- The assembler line of a command (R81): SALSA is written with one operand. -/
def Instr.asm : Instr → AsmLine
  | .b2w a b c => ⟨.b2w, [a.toNat, b.toNat, c.toNat]⟩
  | .w2b a b c => ⟨.w2b, [a.toNat, b.toNat, c.toNat]⟩
  | .copy a b c => ⟨.copy, [a.toNat, b.toNat, c.toNat]⟩
  | .xor a b c => ⟨.xor, [a.toNat, b.toNat, c.toNat]⟩
  | .salsa a => ⟨.salsa, [a.toNat]⟩
  | .bmix a b c => ⟨.bmix, [a.toNat, b.toNat, c.toNat]⟩

end Sys2Proof
end

