-- ==== Sys2Proof/Config.lean ====
section
/-! DEFINITION. What an implementation fixes (the two memory sizes) and what the spec leaves without a value (the
contents of a cell nothing has written). -/

namespace Sys2Proof

/-- The two open parameters of the hardware (00_scope R6, R7): carried in State, so that every statement about a state
holds for every size. -/
structure Config where
  /-- `WMEM_WORDS`, the number of 32-bit cells of `W`. -/
  wmemWords : Nat
  /-- `BMEM_BYTES`, the number of octets of `BM`. -/
  bmemBytes : Nat
deriving DecidableEq, Repr

/-- The sizes 00_scope R6 and R7 allow. -/
abbrev Config.bounded (c : Config) : Prop :=
  1 ≤ c.wmemWords ∧ c.wmemWords ≤ 2 ^ 29 - 1 ∧ 1 ≤ c.bmemBytes ∧ c.bmemBytes ≤ 2 ^ 31 - 1

/-- The test configuration of 00_scope R8: 256 words and 256 octets. DESIGN CHOICE as the sizes of State.reset (log
entry 1). -/
def Config.test : Config := ⟨256, 256⟩

/-- FREE VALUE (log entries 2 and 3): the pattern that read number `n` finds in a cell of `W` nothing has written, or
that a hidden register holds after a Reset (10_state R33, 20_memory R61, 93 U1). No body: nothing can be proved of it. -/
opaque Config.freeWord : Nat → Word

/-- FREE VALUE (log entries 2 and 3): the octet that read number `n` finds in a cell of `BM` nothing has written. -/
opaque Config.freeByte : Nat → Byte

end Sys2Proof
end

