-- ==== Sys2Proof/Machine/State.lean ====
section
/-! DEFINITION. The machine's state as plain data (10_state R20), the host's moves (20_memory R55), the reasons a step
can stop, and the state after reset (10_state R33, 70_reset_and_hazards R230). -/

namespace Sys2Proof.Machine

/-- A memory: (address, cell) pairs, addresses strictly rising. An address that is not listed is a cell nothing has
written since reset; a listed cell has been written (93 U1). For octets this is a list of `Host.Cell`. -/
abbrev Memory (α : Type) := List (Nat × α)

/-- The five numbers of the CSR space, read only (20_memory R43). No other number is defined, so a host move with a
number above 4 cannot be written down (R57). -/
inductive Csr where
  | err | errcmd0 | errcmd1 | errcmd2 | errcmd3
deriving DecidableEq, Repr

/-- The host's moves (20_memory R55). -/
inductive HostMove where
  /-- `HostWrW(a, v)` -/
  | wrW (a : Nat) (v : Word)
  /-- `HostRdW(a)` -/
  | rdW (a : Nat)
  /-- `HostWrB(a, v)` -/
  | wrB (a : Nat) (v : Byte)
  /-- `HostRdB(a)` -/
  | rdB (a : Nat)
  /-- `HostRdCSR(n)` -/
  | rdCsr (n : Csr)
  /-- `Issue(c)` -/
  | issue (c : Command)
  /-- `Reset` -/
  | reset
deriving DecidableEq, Repr

/-- What the block answered to the host's last move (60_exceptions R200, 20_memory R55). -/
inductive Reply where
  /-- nothing: no move yet, a write, or a Reset -/
  | none
  /-- the 4-bit response of an `Issue` -/
  | response (code : BitVec 4)
  /-- the 32 bits a `HostRdW` or `HostRdCSR` returned -/
  | word (v : Word)
  /-- the octet a `HostRdB` returned -/
  | byte (v : Byte)
deriving DecidableEq, Repr

/-- The faults the block stores in `ERR` (60_exceptions R200). They are not faults of the model: taking one is a next
state (`State.raiseFault`). -/
inductive FaultCode where
  /-- ERR_ILLEGAL, R201 -/
  | illegal
  /-- ERR_LENGTH, R202 -/
  | length
  /-- ERR_PARAM, R203 -/
  | param
  /-- ERR_RANGE, R204 -/
  | range
  /-- ERR_OVERLAP, R205 -/
  | overlap
deriving DecidableEq, Repr

/-- Everything the spec gives the machine (10_state R20), its two size parameters, the host's pending moves and last
answer, and the model's counter of free values. -/
structure State where
  /-- the sizes, fixed for the machine (00_scope R6, R7; 10_state R34); log entry 1 -/
  cfg : Config
  /-- `W`, the word memory (10_state R21) -/
  w : Memory Word
  /-- `BM`, the byte memory (10_state R23) -/
  bm : Memory Byte
  /-- `ERR` (10_state R27) -/
  err : BitVec 32
  /-- `ERRCMD` (10_state R28) -/
  errcmd : Command
  /-- the hidden working state `S` of the core, `x[0..15]` (10_state R24) -/
  x : Block
  /-- the hidden block register `T` of BMIX (10_state R25) -/
  t : Block
  /-- the moves the host has still to make, the next one first (20_memory R55, 10_state R29); log entry 6 -/
  host : List HostMove
  /-- the answer to the host's last move; log entry 7 -/
  reply : Reply
  /-- the model's own: how many free values have been numbered so far; log entry 3 -/
  free : Nat
deriving DecidableEq, Repr

/-- Why the model stops with a fault. The block's own faults are next states; this is the only one. -/
inductive Fault where
  /-- Raised by the host moves HostWrW, HostRdW, HostWrB, HostRdB at an address that does not exist: R57 and 93 U6 say
  the host has no such move and the hardware's behaviour for it is not defined. Safe: the run ends. Log entry 9. -/
  | hostAddressOutsideMemory (a : Nat)
deriving DecidableEq, Repr

/-- Why the model refuses. No step of this model refuses. -/
inductive Refusal where
  /-- Raised by an arm of `exec` whose instruction has no meaning yet; no arm is left. Safe. -/
  | notModelled (mnemonic : String)
deriving DecidableEq, Repr

/-- The machine right after reset (10_state R33, 70_reset_and_hazards R230): `ERR` and `ERRCMD` 0, nothing written in
either memory, the host with no move pending. The sizes are those of the test configuration (log entry 1); the hidden
registers, which the spec leaves unspecified and nothing can observe, hold zeros (log entry 5). -/
def State.reset : State where
  cfg := Config.test
  w := []
  bm := []
  err := 0
  errcmd := 0
  x := Vector.replicate 16 0
  t := Vector.replicate 16 0
  host := []
  reply := .none
  free := 0

end Sys2Proof.Machine
end

