-- ==== Sys2Proof/Machine/Flags.lean ====
section
/-! DEFINITION. The block has no flags, condition codes or predicates (10_state R31): the only status of a command is
its response code, and the only status registers are `ERR` and `ERRCMD`. This file holds their values. -/

namespace Sys2Proof.Machine

/-- The response of a command that executed in full (60_exceptions R200). -/
def okCode : BitVec 4 := 0

/-- The response of a locked block; never stored in `ERR` (60_exceptions R200, R206). -/
def lockedCode : BitVec 4 := 6

/-- The stored fault codes (60_exceptions R200). -/
def FaultCode.code : FaultCode → BitVec 4
  | .illegal => 1
  | .length => 2
  | .param => 3
  | .range => 4
  | .overlap => 5

/-- What a read of a CSR number returns (20_memory R43). -/
def readCsr (s : State) : Csr → Word
  | .err => s.err
  | .errcmd0 => s.errcmd.extractLsb' 0 32
  | .errcmd1 => s.errcmd.extractLsb' 32 32
  | .errcmd2 => s.errcmd.extractLsb' 64 32
  | .errcmd3 => s.errcmd.extractLsb' 96 32

end Sys2Proof.Machine
end

