-- ==== Sys2Proof/Machine/Ops.lean ====
section
/-! DEFINITION. The named operations every instruction is written with: one cell of memory, whole blocks, a counted
loop, answering, taking a fault (60_exceptions R208), leaving the locked state (Reset, 70_reset_and_hazards R230), and
the guard every command goes through (60_exceptions R207). -/

namespace Sys2Proof.Machine

/-! ### Memories -/

/-- The cell at `a`, or `none` when nothing has written it since reset. -/
def Memory.read {α : Type} (a : Nat) : Memory α → Option α
  | [] => none
  | (b, u) :: m => if a = b then some u else Memory.read a m

/-- Writes one cell and keeps the addresses rising; changes that cell only (20_memory R49). -/
def Memory.write {α : Type} (a : Nat) (v : α) : Memory α → Memory α
  | [] => [(a, v)]
  | (b, u) :: m =>
    if a < b then (a, v) :: (b, u) :: m
    else if a = b then (a, v) :: m
    else (b, u) :: Memory.write a v m

/-- The canonical form: addresses strictly rising. An unlisted address has no value, so no entry equals one. -/
def Memory.wf {α : Type} : Memory α → Bool
  | [] => true
  | [_] => true
  | p :: q :: m => decide (p.1 < q.1) && Memory.wf (q :: m)

/-- Every listed address is one of the memory's `n` cells. -/
def Memory.within {α : Type} (n : Nat) (m : Memory α) : Bool :=
  m.all fun p => decide (p.1 < n)

/-! ### One cell -/

/-- Counts `n` reads, so that the next read of an unwritten cell gets a value of its own (log entry 3). -/
def State.tick (n : Nat) (s : State) : State :=
  { s with free := s.free + n }

/-- What a read of `W[a]` gives now: the cell, or a free value when nothing has written it (20_memory R61, 93 U1). -/
def State.peekW (a : Nat) (s : State) : Word :=
  (s.w.read a).getD (Config.freeWord s.free)

/-- What a read of `BM[a]` gives now: the cell, or a free value when nothing has written it (20_memory R61, 93 U1). -/
def State.peekB (a : Nat) (s : State) : Byte :=
  (s.bm.read a).getD (Config.freeByte s.free)

/-- `W[a] <- v` -/
def State.writeW (a : Nat) (v : Word) (s : State) : State :=
  { s with w := s.w.write a v }

/-- `BM[a] <- v` -/
def State.writeB (a : Nat) (v : Byte) (s : State) : State :=
  { s with bm := s.bm.write a v }

/-! ### Blocks and loops -/

/-- `for i = 0 .. n-1: body i`, ascending; no turn when `n = 0` (00_scope R10, 20_memory R54). -/
def forUp : Nat → (Nat → State → State) → State → State
  | 0, _, s => s
  | n + 1, body, s => body n (forUp n body s)

/-- `for k = 0 .. 15: out[k] <- W[a + k]`, as a value; the sixteen reads are counted by the caller's `tick 16`. -/
def State.peekBlock (a : Nat) (s : State) : Block :=
  Vector.ofFn fun k : Fin 16 => (s.tick k.val).peekW (a + k.val)

/-- `for k: W[a + k] <- vs[k]`, ascending. -/
def State.writeWords (a : Nat) : List Word → State → State
  | [], s => s
  | v :: vs, s => State.writeWords (a + 1) vs (s.writeW a v)

/-- `for k = 0 .. 15: W[a + k] <- v[k]` -/
def State.writeBlock (a : Nat) (v : Block) (s : State) : State :=
  s.writeWords a v.toList

/-- `W[dst] <- W[src]` -/
def copyCell (src dst : Nat) (s : State) : State :=
  (s.tick 1).writeW dst (s.peekW src)

/-- `for i = 0 .. n-1: W[dst + i] <- W[src + i]` (41_blockops R121). -/
def copyWords (src dst n : Nat) (s : State) : State :=
  forUp n (fun i => copyCell (src + i) (dst + i)) s

/-! ### Answering, faulting, reset -/

/-- The block answers an `Issue` (60_exceptions R200). -/
def State.respond (code : BitVec 4) (s : State) : State :=
  { s with reply := .response code }

/-- `raise Fault(code)`: `ERR` gets the code, `ERRCMD` the command, the response is the code, and nothing else changes
(60_exceptions R208). -/
def State.raiseFault (f : FaultCode) (cmd : Command) (s : State) : State :=
  { s with err := f.code.setWidth 32, errcmd := cmd, reply := .response f.code }

/-- The host's `Reset`, the only way out of the locked state (60_exceptions R210): `ERR` and `ERRCMD` 0, both memories
and the hidden registers unspecified whether or not they had been written (70_reset_and_hazards R230), no response
given (R231). The sizes and the host's own list stay. The hidden registers take free values (log entry 5). -/
def State.hostReset (s : State) : State :=
  { s with
    w := []
    bm := []
    err := 0
    errcmd := 0
    x := Vector.ofFn fun k : Fin 16 => Config.freeWord (s.free + k.val)
    t := Vector.ofFn fun k : Fin 16 => Config.freeWord (s.free + 16 + k.val)
    reply := .none
    free := s.free + 32 }

/-- What every command goes through (60_exceptions R207): a locked block answers ERR_LOCKED and does nothing else
(R206); a command whose checks find a fault raises it before any access (R209); otherwise the command runs in full and
answers OK. `found` is the outcome of steps 3 to 6 for this command. -/
def runCommand (i : Instr) (found : Option FaultCode) (body : State → State) (s : State) :
    Host.Outcome State Fault Refusal :=
  if s.err ≠ 0 then .next (s.respond lockedCode)
  else
    match found with
    | some f => .next (s.raiseFault f (encode i))
    | none => .next ((body s).respond okCode)

end Sys2Proof.Machine
end

