-- ==== Sys2Proof/Machine/Operands.lean ====
section
/-! DEFINITION. What a command's operands must satisfy (60_exceptions R202 to R205): regions on exact natural numbers
(00_scope R13, 20_memory R50), the two overlap predicates (41_blockops R123, 43_blockmix R163), and the checks of each
command in the order of R207. Operands are absolute, unscaled, zero-extended (30_encoding R75). -/

namespace Sys2Proof.Machine

/-- A region of `n` cells from `start` lies inside a memory of `size` cells (20_memory R50); so does an empty region
that starts at `size`. -/
def regionIn (size start n : Nat) : Bool :=
  decide (start + n ≤ size)

/-- The destination starts strictly inside the source, above its first word (41_blockops R123). -/
def backwardOverlap (srcPos dstPos len : Nat) : Bool :=
  decide (srcPos < dstPos) && decide (dstPos < srcPos + len)

/-- Two regions of `n` cells intersect (43_blockmix R163). -/
def regionsMeet (x y n : Nat) : Bool :=
  decide (x < y + n) && decide (y < x + n)

/-- The number of words of one BlockMix region: `2r` blocks of 16 words, exactly (43_blockmix R163). -/
def chunkWords (r : Word) : Nat :=
  32 * r.toNat

/-- Checks of `B2W`: the length first, then both regions (40_wordcodec R101). -/
def checkB2w (cfg : Config) (bsrc wdst nbytes : Word) : Option FaultCode :=
  if nbytes.toNat % 4 ≠ 0 then some .length
  else if regionIn cfg.bmemBytes bsrc.toNat nbytes.toNat
      && regionIn cfg.wmemWords wdst.toNat (nbytes.toNat / 4) then none
  else some .range

/-- Checks of `W2B` (40_wordcodec R102). -/
def checkW2b (cfg : Config) (wsrc bdst nwords : Word) : Option FaultCode :=
  if regionIn cfg.wmemWords wsrc.toNat nwords.toNat
      && regionIn cfg.bmemBytes bdst.toNat (4 * nwords.toNat) then none
  else some .range

/-- Checks of `COPY` and `XOR`, which fault alike (41_blockops R121, R122, R124). -/
def checkMove (cfg : Config) (srcPos dstPos len : Word) : Option FaultCode :=
  if regionIn cfg.wmemWords srcPos.toNat len.toNat
      && regionIn cfg.wmemWords dstPos.toNat len.toNat then
    if backwardOverlap srcPos.toNat dstPos.toNat len.toNat then some .overlap else none
  else some .range

/-- Check of `SALSA` (42_salsa20_8 R146). -/
def checkSalsa (cfg : Config) (addr : Word) : Option FaultCode :=
  if regionIn cfg.wmemWords addr.toNat 16 then none else some .range

/-- Checks of `BMIX`: `r`, then both regions, then their overlap (43_blockmix R162). -/
def checkBmix (cfg : Config) (xaddr yaddr r : Word) : Option FaultCode :=
  if r.toNat = 0 then some .param
  else if regionIn cfg.wmemWords xaddr.toNat (chunkWords r)
      && regionIn cfg.wmemWords yaddr.toNat (chunkWords r) then
    if regionsMeet xaddr.toNat yaddr.toNat (chunkWords r) then some .overlap else none
  else some .range

/-- Steps 3 to 6 of R207 for any command. -/
def checkInstr (cfg : Config) : Instr → Option FaultCode
  | .b2w bsrc wdst nbytes => checkB2w cfg bsrc wdst nbytes
  | .w2b wsrc bdst nwords => checkW2b cfg wsrc bdst nwords
  | .copy srcPos dstPos len => checkMove cfg srcPos dstPos len
  | .xor srcPos dstPos len => checkMove cfg srcPos dstPos len
  | .salsa addr => checkSalsa cfg addr
  | .bmix xaddr yaddr r => checkBmix cfg xaddr yaddr r

/-- Steps 2 to 6 of R207 for any command word: the fault it meets when the block is not locked. It depends on the word
and the sizes alone (60_exceptions R200). -/
def faultOf (cfg : Config) (cmd : Command) : Option FaultCode :=
  match decode cmd with
  | .error _ => some .illegal
  | .ok i => checkInstr cfg i

end Sys2Proof.Machine
end

