-- ==== Sys2Proof/Machine/SalsaCore.lean ====
section
/-! DEFINITION. The Salsa20/8 core and command SALSA (spec/42_salsa20_8.md). -/

namespace Sys2Proof.Machine

/-- `rotl(a, k)` for `0 < k < 32` (00_scope R12). -/
def rotl (a : Word) (k : Nat) : Word :=
  (a <<< k) ||| (a >>> (32 - k))

/-- One row of the table of R143: destination, two sources, rotation. -/
structure Update where
  d : Fin 16
  a : Fin 16
  b : Fin 16
  k : Nat
deriving DecidableEq, Repr

/-- `x[d] <- x[d] xor rotl(x[a] +32 x[b], k)` (42_salsa20_8 R142). -/
def applyUpdate (x : Block) (u : Update) : Block :=
  x.set u.d.val (x.get u.d ^^^ rotl (x.get u.a + x.get u.b) u.k) u.d.isLt

/-- Updates 1 to 16 of R143. -/
def columnRound : List Update :=
  [⟨4, 0, 12, 7⟩, ⟨8, 4, 0, 9⟩, ⟨12, 8, 4, 13⟩, ⟨0, 12, 8, 18⟩,
   ⟨9, 5, 1, 7⟩, ⟨13, 9, 5, 9⟩, ⟨1, 13, 9, 13⟩, ⟨5, 1, 13, 18⟩,
   ⟨14, 10, 6, 7⟩, ⟨2, 14, 10, 9⟩, ⟨6, 2, 14, 13⟩, ⟨10, 6, 2, 18⟩,
   ⟨3, 15, 11, 7⟩, ⟨7, 3, 15, 9⟩, ⟨11, 7, 3, 13⟩, ⟨15, 11, 7, 18⟩]

/-- Updates 17 to 32 of R143. -/
def rowRound : List Update :=
  [⟨1, 0, 3, 7⟩, ⟨2, 1, 0, 9⟩, ⟨3, 2, 1, 13⟩, ⟨0, 3, 2, 18⟩,
   ⟨6, 5, 4, 7⟩, ⟨7, 6, 5, 9⟩, ⟨4, 7, 6, 13⟩, ⟨5, 4, 7, 18⟩,
   ⟨11, 10, 9, 7⟩, ⟨8, 11, 10, 9⟩, ⟨9, 8, 11, 13⟩, ⟨10, 9, 8, 18⟩,
   ⟨12, 15, 14, 7⟩, ⟨13, 12, 15, 9⟩, ⟨14, 13, 12, 13⟩, ⟨15, 14, 13, 18⟩]

/-- Updates executed one after another, each on the state the ones before it left (42_salsa20_8 R142). -/
def applyUpdates (us : List Update) (x : Block) : Block :=
  us.foldl applyUpdate x

/-- One double-round: the column round, then the row round (42_salsa20_8 R143). -/
def doubleRound (x : Block) : Block :=
  applyUpdates rowRound (applyUpdates columnRound x)

/-- `n` double-rounds in a row. -/
def doubleRounds : Nat → Block → Block
  | 0, x => x
  | n + 1, x => doubleRound (doubleRounds n x)

/-- Step 2 of R145: 4 double-rounds (R144). Its result is what the working state `x[0..15]` is left with. -/
def permute (x : Block) : Block :=
  doubleRounds 4 x

/-- Word-wise addition modulo 2^32 (42_salsa20_8 R145 step 3). -/
def addBlock (x y : Block) : Block :=
  Vector.ofFn fun k : Fin 16 => x.get k + y.get k

/-- Word-wise exclusive or (43_blockmix R161 step 2a). -/
def xorBlock (x y : Block) : Block :=
  Vector.ofFn fun k : Fin 16 => x.get k ^^^ y.get k

/-- The function `Salsa20_8` (42_salsa20_8 R145). -/
def salsa20_8 (input : Block) : Block :=
  addBlock (permute input) input

/-- The core applied to the block at `addr`: sixteen words read, then all written; `x` is left as step 2 left it
(42_salsa20_8 R146). -/
def salsaAt (addr : Nat) (s : State) : State :=
  ({ s.tick 16 with x := permute (s.peekBlock addr) } : State).writeBlock addr (salsa20_8 (s.peekBlock addr))

/-- `SALSA addr` (42_salsa20_8 R146). -/
def execSalsa (addr : Word) (s : State) : Host.Outcome State Fault Refusal :=
  runCommand (.salsa addr) (checkSalsa s.cfg addr) (salsaAt addr.toNat) s

end Sys2Proof.Machine
end

