-- ==== Sys2Proof/Machine/BlockMix.lean ====
section
/-! DEFINITION. The BlockMix pipeline, command BMIX (spec/43_blockmix.md). -/

namespace Sys2Proof.Machine

/-- Step 1: `T` gets the last block of the X region (43_blockmix R161). -/
def loadLast (xaddr r : Nat) (s : State) : State :=
  { s.tick 16 with t := s.peekBlock (xaddr + (2 * r - 1) * 16) }

/-- Step 2, turn `i`: `T` xor block `i`, through the core, into slot `i` (43_blockmix R161). -/
def mixSlot (xaddr yaddr i : Nat) (s : State) : State :=
  ({ s.tick 16 with
      x := permute (xorBlock s.t (s.peekBlock (xaddr + 16 * i)))
      t := salsa20_8 (xorBlock s.t (s.peekBlock (xaddr + 16 * i))) } : State).writeBlock (yaddr + 16 * i)
    (salsa20_8 (xorBlock s.t (s.peekBlock (xaddr + 16 * i))))

/-- Steps 1 and 2: the `2r` slots of the Y region in slot order (43_blockmix R161). -/
def mixPhase (xaddr yaddr r : Nat) (s : State) : State :=
  forUp (2 * r) (mixSlot xaddr yaddr) (loadLast xaddr r s)

/-- Step 3: even slots to the first `r` blocks of the X region, then odd slots to the next `r` (43_blockmix R161). -/
def deinterleave (xaddr yaddr r : Nat) (s : State) : State :=
  forUp r (fun i => copyWords (yaddr + 16 * (2 * i + 1)) (xaddr + 16 * (r + i)) 16)
    (forUp r (fun i => copyWords (yaddr + 16 * (2 * i)) (xaddr + 16 * i) 16) s)

/-- The function BlockMix on `W` (43_blockmix R161). -/
def blockMix (xaddr yaddr r : Nat) (s : State) : State :=
  deinterleave xaddr yaddr r (mixPhase xaddr yaddr r s)

/-- `BMIX xaddr, yaddr, r` (43_blockmix R162). -/
def execBmix (xaddr yaddr r : Word) (s : State) : Host.Outcome State Fault Refusal :=
  runCommand (.bmix xaddr yaddr r) (checkBmix s.cfg xaddr yaddr r)
    (blockMix xaddr.toNat yaddr.toNat r.toNat) s

end Sys2Proof.Machine
end

