-- ==== Sys2Proof/Machine/BlockOps.lean ====
section
/-! DEFINITION. BlockOps, commands COPY and XOR (spec/41_blockops.md). -/

namespace Sys2Proof.Machine

/-- `W[dst] <- W[dst] xor W[src]`: two reads, one write (41_blockops R122). -/
def xorCell (src dst : Nat) (s : State) : State :=
  (s.tick 2).writeW dst (s.peekW dst ^^^ (s.tick 1).peekW src)

/-- The loop of `XOR`, ascending (41_blockops R122). -/
def xorWords (src dst n : Nat) (s : State) : State :=
  forUp n (fun i => xorCell (src + i) (dst + i)) s

/-- `COPY srcPos, dstPos, len` (41_blockops R121). -/
def execCopy (srcPos dstPos len : Word) (s : State) : Host.Outcome State Fault Refusal :=
  runCommand (.copy srcPos dstPos len) (checkMove s.cfg srcPos dstPos len)
    (copyWords srcPos.toNat dstPos.toNat len.toNat) s

/-- `XOR srcPos, dstPos, len` (41_blockops R122). -/
def execXor (srcPos dstPos len : Word) (s : State) : Host.Outcome State Fault Refusal :=
  runCommand (.xor srcPos dstPos len) (checkMove s.cfg srcPos dstPos len)
    (xorWords srcPos.toNat dstPos.toNat len.toNat) s

end Sys2Proof.Machine
end

