-- ==== Sys2Proof/Machine/WordCodec.lean ====
section
/-! DEFINITION. WordCodec, commands B2W and W2B (spec/40_wordcodec.md): the only place where the bytes of a word have an
order (20_memory R44, R45). -/

namespace Sys2Proof.Machine

/-- The word of four bytes, lowest address first and least significant (20_memory R44). -/
def wordOfBytes (b0 b1 b2 b3 : Byte) : Word :=
  b0.setWidth 32 ||| (b1.setWidth 32 <<< 8) ||| (b2.setWidth 32 <<< 16) ||| (b3.setWidth 32 <<< 24)

/-- Byte `k` of a word: `v[7:0]`, `v[15:8]`, `v[23:16]`, `v[31:24]` for `k` 0 to 3 (40_wordcodec R102). -/
def byteOfWord (v : Word) (k : Nat) : Byte :=
  v.extractLsb' (8 * k) 8

/-- Turn `j` of `B2W`: four bytes read, one word written (40_wordcodec R101). -/
def b2wCell (bsrc wdst j : Nat) (s : State) : State :=
  (s.tick 4).writeW (wdst + j)
    (wordOfBytes (s.peekB (bsrc + 4 * j)) ((s.tick 1).peekB (bsrc + 4 * j + 1))
      ((s.tick 2).peekB (bsrc + 4 * j + 2)) ((s.tick 3).peekB (bsrc + 4 * j + 3)))

/-- The loop of `B2W` over `n` words (40_wordcodec R101). -/
def b2wWords (bsrc wdst n : Nat) (s : State) : State :=
  forUp n (b2wCell bsrc wdst) s

/-- The four bytes of `v` into `BM[b .. b+3]`, least significant first (40_wordcodec R102). -/
def storeWordBytes (b : Nat) (v : Word) (s : State) : State :=
  (((s.writeB b (byteOfWord v 0)).writeB (b + 1) (byteOfWord v 1)).writeB (b + 2) (byteOfWord v 2)).writeB (b + 3)
    (byteOfWord v 3)

/-- Turn `j` of `W2B`: one word read, four bytes written (40_wordcodec R102). -/
def w2bCell (wsrc bdst j : Nat) (s : State) : State :=
  storeWordBytes (bdst + 4 * j) (s.peekW (wsrc + j)) (s.tick 1)

/-- The loop of `W2B` over `n` words (40_wordcodec R102). -/
def w2bWords (wsrc bdst n : Nat) (s : State) : State :=
  forUp n (w2bCell wsrc bdst) s

/-- `B2W bsrc, wdst, nbytes` (40_wordcodec R101). -/
def execB2w (bsrc wdst nbytes : Word) (s : State) : Host.Outcome State Fault Refusal :=
  runCommand (.b2w bsrc wdst nbytes) (checkB2w s.cfg bsrc wdst nbytes)
    (b2wWords bsrc.toNat wdst.toNat (nbytes.toNat / 4)) s

/-- `W2B wsrc, bdst, nwords` (40_wordcodec R102). -/
def execW2b (wsrc bdst nwords : Word) (s : State) : Host.Outcome State Fault Refusal :=
  runCommand (.w2b wsrc bdst nwords) (checkW2b s.cfg wsrc bdst nwords)
    (w2bWords wsrc.toNat bdst.toNat nwords.toNat) s

end Sys2Proof.Machine
end

