-- ==== Sys2Proof/Machine/Dispatch.lean ====
section
/-! DEFINITION. One arm per command: `exec i s` is what `Issue` of the command `i` does to the block (60_exceptions
R207, steps 1 and 3 to 7; step 2 is the decoder's). -/

namespace Sys2Proof.Machine

def exec (i : Instr) (s : State) : Host.Outcome State Fault Refusal :=
  match i with
  | .b2w bsrc wdst nbytes => Sys2Proof.Machine.execB2w bsrc wdst nbytes s
  | .w2b wsrc bdst nwords => Sys2Proof.Machine.execW2b wsrc bdst nwords s
  | .copy srcPos dstPos len => Sys2Proof.Machine.execCopy srcPos dstPos len s
  | .xor srcPos dstPos len => Sys2Proof.Machine.execXor srcPos dstPos len s
  | .salsa addr => Sys2Proof.Machine.execSalsa addr s
  | .bmix xaddr yaddr r => Sys2Proof.Machine.execBmix xaddr yaddr r s

end Sys2Proof.Machine
end

