-- ==== Sys2Proof/Machine/Issue.lean ====
section
/-! DEFINITION. The host's side of a step: `Issue(c)` (60_exceptions R207) and the other moves of the host
(20_memory R55), all of which work whether or not the block is locked. -/

namespace Sys2Proof.Machine

/-- `Issue(c)`: a locked block answers before it decodes (R206); an illegal word faults (R201); a legal one runs
(30_encoding R83, 60_exceptions R207). -/
def issue (cmd : Command) (s : State) : Host.Outcome State Fault Refusal :=
  if s.err ≠ 0 then .next (s.respond lockedCode)
  else
    match decode cmd with
    | .error _ => .next (s.raiseFault .illegal cmd)
    | .ok i => exec i s

/-- `HostWrW(a, v)` (20_memory R55). -/
def hostWrW (a : Nat) (v : Word) (s : State) : Host.Outcome State Fault Refusal :=
  if a < s.cfg.wmemWords then .next (({ s with reply := .none } : State).writeW a v)
  else .fault (.hostAddressOutsideMemory a)

/-- `HostRdW(a)` (20_memory R55); an unwritten cell answers a free value (93 U1). -/
def hostRdW (a : Nat) (s : State) : Host.Outcome State Fault Refusal :=
  if a < s.cfg.wmemWords then .next { s.tick 1 with reply := .word (s.peekW a) }
  else .fault (.hostAddressOutsideMemory a)

/-- `HostWrB(a, v)` (20_memory R55). -/
def hostWrB (a : Nat) (v : Byte) (s : State) : Host.Outcome State Fault Refusal :=
  if a < s.cfg.bmemBytes then .next (({ s with reply := .none } : State).writeB a v)
  else .fault (.hostAddressOutsideMemory a)

/-- `HostRdB(a)` (20_memory R55); an unwritten cell answers a free value (93 U1). -/
def hostRdB (a : Nat) (s : State) : Host.Outcome State Fault Refusal :=
  if a < s.cfg.bmemBytes then .next { s.tick 1 with reply := .byte (s.peekB a) }
  else .fault (.hostAddressOutsideMemory a)

/-- One move of the host (20_memory R55). -/
def runMove (m : HostMove) (s : State) : Host.Outcome State Fault Refusal :=
  match m with
  | .wrW a v => hostWrW a v s
  | .rdW a => hostRdW a s
  | .wrB a v => hostWrB a v s
  | .rdB a => hostRdB a s
  | .rdCsr n => .next { s with reply := .word (readCsr s n) }
  | .issue cmd => issue cmd s
  | .reset => .next s.hostReset

/-- The next pending move, or nothing: with no move pending the block is idle and holds its state (60_exceptions R218,
70_reset_and_hazards R232). -/
def stepHost (s : State) : Host.Outcome State Fault Refusal :=
  match s.host with
  | [] => .next s
  | m :: rest => runMove m { s with host := rest }

/-- A command put where the next step takes it: first among the host's pending moves (log entry 6). -/
def presentCommand (cmd : Command) (s : State) : State :=
  { s with host := .issue cmd :: s.host }

end Sys2Proof.Machine
end

