-- ==== Sys2Proof/Machine/Step.lean ====
section
/-! DEFINITION. The step, and how the host's tools place one instruction before it. -/

namespace Sys2Proof.Machine

/-- One step: the host's next move (20_memory R55); a whole command is one step (00_scope R15). -/
def step (s : State) : Host.Outcome State Fault Refusal :=
  stepHost s

/-- `s` with the command whose bits are `w`, numbered as the opcode table numbers them and 0 from `nbits` up, put where
the next step takes it. Commands are not fetched from memory (20_memory R59): the host hands them over (log entry 6). -/
def State.withFetchWord (s : State) (nbits w : Nat) : State :=
  presentCommand (BitVec.ofNat 128 (w % 2 ^ nbits)) s

end Sys2Proof.Machine
end

