-- ==== Sys2Proof/Safety.lean ====
section
/-! DEFINITION. What claims call a proper state and a good run (10_state R20, R27, R28; 70_reset_and_hazards R244). -/

namespace Sys2Proof.Machine

/-- What `ERR` and `ERRCMD` hold: both 0, or the first fault and the command that raised it (10_state R27, R28;
60_exceptions R208). The code is the one the command word and the sizes decide (60_exceptions R200). -/
abbrev State.statusProper (s : State) : Prop :=
  (s.err = 0 → s.errcmd = 0) ∧
    (s.err ≠ 0 → (faultOf s.cfg s.errcmd).map (fun f => f.code.setWidth 32) = some s.err)

/-- The sizes are allowed, both memories are in canonical form and list only cells that exist, and the status registers
are proper. -/
abbrev State.Inv (s : State) : Prop :=
  s.cfg.bounded ∧ Memory.wf s.w = true ∧ Memory.within s.cfg.wmemWords s.w = true ∧ Memory.wf s.bm = true ∧
    Memory.within s.cfg.bmemBytes s.bm = true ∧ s.statusProper

/-- The start of a run on a block of given sizes: the state after reset with the host's moves pending (R244). -/
def State.boot (cfg : Config) (moves : List HostMove) : State :=
  { State.reset with cfg := cfg, host := moves }

/-- The answer is not the response of a command that did not execute (60_exceptions R200). -/
def Reply.okOrSilent : Reply → Bool
  | .response code => code == okCode
  | .none | .word _ | .byte _ => true

/-- The next `k` steps are taken and every response among their answers is OK: a good run of `k` moves
(70_reset_and_hazards R244). -/
def goodRun : Nat → State → Bool
  | 0, _ => true
  | k + 1, s =>
    match step s with
    | .next s' => s'.reply.okOrSilent && goodRun k s'
    | .fault _ => false
    | .refused _ => false

/-- The slots of BlockMix from its input blocks `X 0, X 1, ...` and the block `T` starts as: each slot is the core of
the slot before it (the start, for slot 0) xor the input block (43_blockmix R161, block terms). -/
def slot (X : Nat → Block) (start : Block) : Nat → Block
  | 0 => salsa20_8 (xorBlock start (X 0))
  | i + 1 => salsa20_8 (xorBlock (slot X start i) (X (i + 1)))

/-! ### What a command's operands break, in plain arithmetic (60_exceptions R202 to R205) -/

/-- The command breaks its length precondition (60_exceptions R202). -/
def breaksLength : Instr → Bool
  | .b2w _ _ nbytes => decide (nbytes.toNat % 4 ≠ 0)
  | .w2b _ _ _ | .copy _ _ _ | .xor _ _ _ | .salsa _ | .bmix _ _ _ => false

/-- A parameter of the command is outside its domain (60_exceptions R203). -/
def breaksParam : Instr → Bool
  | .bmix _ _ r => decide (r.toNat = 0)
  | .b2w _ _ _ | .w2b _ _ _ | .copy _ _ _ | .xor _ _ _ | .salsa _ => false

/-- A region the command names is not inside its memory: the table of 60_exceptions R204. -/
def outOfRange (cfg : Config) : Instr → Bool
  | .b2w bsrc wdst nbytes =>
    decide (bsrc.toNat + nbytes.toNat > cfg.bmemBytes ∨ wdst.toNat + nbytes.toNat / 4 > cfg.wmemWords)
  | .w2b wsrc bdst nwords =>
    decide (wsrc.toNat + nwords.toNat > cfg.wmemWords ∨ bdst.toNat + 4 * nwords.toNat > cfg.bmemBytes)
  | .copy srcPos dstPos len | .xor srcPos dstPos len =>
    decide (srcPos.toNat + len.toNat > cfg.wmemWords ∨ dstPos.toNat + len.toNat > cfg.wmemWords)
  | .salsa addr => decide (addr.toNat + 16 > cfg.wmemWords)
  | .bmix xaddr yaddr r =>
    decide (xaddr.toNat + 32 * r.toNat > cfg.wmemWords ∨ yaddr.toNat + 32 * r.toNat > cfg.wmemWords)

/-- Two regions of the command overlap in the unsupported way (60_exceptions R205, 41_blockops R123, 43_blockmix
R163). -/
def unsupportedOverlap : Instr → Bool
  | .copy srcPos dstPos len | .xor srcPos dstPos len =>
    decide (srcPos.toNat < dstPos.toNat ∧ dstPos.toNat < srcPos.toNat + len.toNat)
  | .bmix xaddr yaddr r =>
    decide (xaddr.toNat < yaddr.toNat + 32 * r.toNat ∧ yaddr.toNat < xaddr.toNat + 32 * r.toNat)
  | .b2w _ _ _ | .w2b _ _ _ | .salsa _ => false

/-- The command writes the word at `a` when it executes: the "Writes" column of 49_command_set_laws R170. -/
def wordWritten : Instr → Nat → Bool
  | .b2w _ wdst nbytes, a => decide (wdst.toNat ≤ a ∧ a < wdst.toNat + nbytes.toNat / 4)
  | .w2b _ _ _, _ => false
  | .copy _ dstPos len, a | .xor _ dstPos len, a => decide (dstPos.toNat ≤ a ∧ a < dstPos.toNat + len.toNat)
  | .salsa addr, a => decide (addr.toNat ≤ a ∧ a < addr.toNat + 16)
  | .bmix xaddr yaddr r, a =>
    decide ((xaddr.toNat ≤ a ∧ a < xaddr.toNat + 32 * r.toNat) ∨
      (yaddr.toNat ≤ a ∧ a < yaddr.toNat + 32 * r.toNat))

/-- The command writes the byte at `a` when it executes: the "Writes" column of 49_command_set_laws R170. -/
def byteWritten : Instr → Nat → Bool
  | .w2b _ bdst nwords, a => decide (bdst.toNat ≤ a ∧ a < bdst.toNat + 4 * nwords.toNat)
  | .b2w _ _ _, _ | .copy _ _ _, _ | .xor _ _ _, _ | .salsa _, _ | .bmix _ _ _, _ => false

/-- The state a stored fault leaves: `ERR`, `ERRCMD` and the response, everything else as it was (60_exceptions
R208). -/
def faulted (s : State) (code : Nat) (cmd : Command) : State :=
  { s with err := BitVec.ofNat 32 code, errcmd := cmd, reply := .response (BitVec.ofNat 4 code) }

/-- The state a locked block's answer leaves (60_exceptions R206). -/
def answeredLocked (s : State) : State :=
  { s with reply := .response 6 }

/-! ### Reference forms -/

/-- One quarter-round on four cells, as 42_salsa20_8 R143 explains the table. -/
def quarterRound (y0 y1 y2 y3 : Word) : Word × Word × Word × Word :=
  let z1 := y1 ^^^ (y0 + y3).rotateLeft 7
  let z2 := y2 ^^^ (z1 + y0).rotateLeft 9
  let z3 := y3 ^^^ (z2 + z1).rotateLeft 13
  let z0 := y0 ^^^ (z3 + z2).rotateLeft 18
  (z0, z1, z2, z3)

/-- The column round on the 4 by 4 matrix: four quarter-rounds on the columns, each started at its diagonal cell, all
from the same input (42_salsa20_8 R143). -/
def columnsOnce (x : Block) : Block :=
  let (x0, x4, x8, x12) := quarterRound (x.get 0) (x.get 4) (x.get 8) (x.get 12)
  let (x5, x9, x13, x1) := quarterRound (x.get 5) (x.get 9) (x.get 13) (x.get 1)
  let (x10, x14, x2, x6) := quarterRound (x.get 10) (x.get 14) (x.get 2) (x.get 6)
  let (x15, x3, x7, x11) := quarterRound (x.get 15) (x.get 3) (x.get 7) (x.get 11)
  #v[x0, x1, x2, x3, x4, x5, x6, x7, x8, x9, x10, x11, x12, x13, x14, x15]

/-- The row round on the 4 by 4 matrix (42_salsa20_8 R143). -/
def rowsOnce (x : Block) : Block :=
  let (x0, x1, x2, x3) := quarterRound (x.get 0) (x.get 1) (x.get 2) (x.get 3)
  let (x5, x6, x7, x4) := quarterRound (x.get 5) (x.get 6) (x.get 7) (x.get 4)
  let (x10, x11, x8, x9) := quarterRound (x.get 10) (x.get 11) (x.get 8) (x.get 9)
  let (x15, x12, x13, x14) := quarterRound (x.get 15) (x.get 12) (x.get 13) (x.get 14)
  #v[x0, x1, x2, x3, x4, x5, x6, x7, x8, x9, x10, x11, x12, x13, x14, x15]

/-- Commands executed one after another; nothing when one of them does not answer a next state. -/
def execAll : List Instr → State → Option State
  | [], s => some s
  | i :: is, s =>
    match exec i s with
    | .next s' => execAll is s'
    | .fault _ => none
    | .refused _ => none

/-- The command sequence of 43_blockmix R164, with the spare block at word address `t`. -/
def blockMixCommands (x y r t : Nat) : List Instr :=
  let at32 := BitVec.ofNat 32
  [.copy (at32 (x + (2 * r - 1) * 16)) (at32 t) 16] ++
  (List.range (2 * r)).flatMap (fun i =>
    [.xor (at32 (x + 16 * i)) (at32 t) 16, .salsa (at32 t), .copy (at32 t) (at32 (y + 16 * i)) 16]) ++
  (List.range r).map (fun i => .copy (at32 (y + 32 * i)) (at32 (x + 16 * i)) 16) ++
  (List.range r).map (fun i => .copy (at32 (y + 32 * i + 16)) (at32 (x + 16 * (r + i))) 16)

/-- `n` words of `W` from `a` have all been written and are `v 0, v 1, ...`. -/
abbrev State.holds (s : State) (a n : Nat) (v : Nat → Word) : Prop :=
  ∀ k < n, s.w.read (a + k) = some (v k)

/-- The sixteen words of `W` from `a` have all been written and are the block `b`. -/
abbrev State.holdsBlock (s : State) (a : Nat) (b : Block) : Prop :=
  ∀ k : Fin 16, s.w.read (a + k.val) = some (b.get k)

end Sys2Proof.Machine
end

