-- ==== Sys2Proof/Certificates/Slice0/Obligations.lean ====
section
/-! DEFINITION. The statements for the provers. Each docstring names the rule of spec/ it formalises, or, where a clause
is the model's own choice, the log entry. A statement about a command holds for every size of the memories (`cfg` is
arbitrary) and whatever the memories hold; a clause about a value asks that the cells it is computed from have been
written, and no clause rests on a free value. -/

open Sys2Proof Sys2Proof.Machine

/-! ### Encoding -/

/-- Decode of encode is the instruction, for every command and every operand (30_encoding R71 to R74, R83). -/
def Obligations.DecodeOfEncode : Prop :=
  ∀ i : Instr, decode (encode i) = .ok i

/-- A word that decodes is the encoding of what it decodes to: each command has one word (30_encoding R77, R78, R83). -/
def Obligations.EncodeOfDecode : Prop :=
  ∀ (cmd : Command) (i : Instr), decode cmd = .ok i → encode i = cmd

/-- The decode procedure on the five fields of CMD128, line by line (30_encoding R71, R83). -/
def Obligations.DecodeProcedure : Prop :=
  ∀ (OP : BitVec 8) (RSV : BitVec 24) (A B C : Word),
    decode (BitVec.ofNat 128
      (OP.toNat + RSV.toNat * 2 ^ 8 + A.toNat * 2 ^ 32 + B.toNat * 2 ^ 64 + C.toNat * 2 ^ 96)) =
    if OP = 0x00 ∨ 0x07 ≤ OP.toNat then .error .reservedOpcode
    else if RSV ≠ 0 then .error .reservedBits
    else if OP = 0x05 ∧ (B ≠ 0 ∨ C ≠ 0) then .error .unusedOperand
    else if OP = 0x01 then .ok (.b2w A B C)
    else if OP = 0x02 then .ok (.w2b A B C)
    else if OP = 0x03 then .ok (.copy A B C)
    else if OP = 0x04 then .ok (.xor A B C)
    else if OP = 0x05 then .ok (.salsa A)
    else .ok (.bmix A B C)

/-- A word is one of the six commands with legal fields, or it is illegal; `legal` is R76 to R78 in arithmetic
(30_encoding R79). -/
def Obligations.WordDecodesExactlyWhenLegal : Prop :=
  ∀ cmd : Command, cmd.legal ↔ ∃ i, decode cmd = .ok i

/-- A word decodes to a row's command exactly when it agrees with the row's `match` under its `mask`
(spec/opcode_table.json, all six rows). -/
def Obligations.OpcodeTableRowsDecode : Prop :=
  ∀ cmd : Command,
    (cmd &&& 0x000000000000000000000000FFFFFFFF = 0x01 ↔ ∃ a b c, decode cmd = .ok (.b2w a b c)) ∧
    (cmd &&& 0x000000000000000000000000FFFFFFFF = 0x02 ↔ ∃ a b c, decode cmd = .ok (.w2b a b c)) ∧
    (cmd &&& 0x000000000000000000000000FFFFFFFF = 0x03 ↔ ∃ a b c, decode cmd = .ok (.copy a b c)) ∧
    (cmd &&& 0x000000000000000000000000FFFFFFFF = 0x04 ↔ ∃ a b c, decode cmd = .ok (.xor a b c)) ∧
    (cmd &&& 0xFFFFFFFFFFFFFFFF00000000FFFFFFFF = 0x05 ↔ ∃ a, decode cmd = .ok (.salsa a)) ∧
    (cmd &&& 0x000000000000000000000000FFFFFFFF = 0x06 ↔ ∃ a b c, decode cmd = .ok (.bmix a b c))

/-- One word of each command, written out from the encoding, decodes to it (95_test_vectors K6, K2, R72, O2, S7, M2). -/
def Obligations.WordsWrittenOutDecode : Prop :=
  decode 0x00000010000000140000006400000001 = .ok (.b2w 100 20 16) ∧
  decode 0x00000002000000200000000800000002 = .ok (.w2b 8 32 2) ∧
  decode 0x00000010000000400000001000000003 = .ok (.copy 16 64 16) ∧
  decode 0x00000004000000140000000000000004 = .ok (.xor 0 20 4) ∧
  decode 0x0000000000000000000000f000000005 = .ok (.salsa 240) ∧
  decode 0x00000002000000640000000800000006 = .ok (.bmix 8 100 2)

/-- The assembler form and the commands are two spellings of one set: a command's line is well formed and assembles to
it, and a well-formed line assembles to a command whose line it is (30_encoding R81). A line is a mnemonic and numbers,
the model's choice (log entry 16): in R81's text the decimal and the 0x spelling of a number give several lines for one
command, and the second half holds only because a line here holds the number itself. -/
def Obligations.AssemblerRoundTrip : Prop :=
  (∀ i : Instr, i.asm.wellFormed = true ∧ assemble i.asm = some i) ∧
  ∀ l : AsmLine, l.wellFormed = true → ∃ i, assemble l = some i ∧ i.asm = l

/-! ### The step -/

/-- A step runs the issued command: it takes the move off the host's list and is `exec` of what the word decodes to
(30_encoding R83; the list of moves is the model's, log entry 6). -/
def Obligations.StepRunsTheIssuedCommand : Prop :=
  ∀ (s : State) (cmd : Command) (rest : List HostMove) (i : Instr),
    s.host = .issue cmd :: rest → decode cmd = .ok i → step s = exec i { s with host := rest }

/-- A command placed with `withFetchWord` is what the very next step runs (log entry 6). -/
def Obligations.PlacedCommandRunsNext : Prop :=
  ∀ (s : State) (w : Nat) (i : Instr),
    decode (BitVec.ofNat 128 w) = .ok i → step (s.withFetchWord 128 w) = exec i s

/-- With no move pending the block does nothing and holds its state (60_exceptions R218, 70_reset_and_hazards R232;
that this is a step is the model's, log entry 6). -/
def Obligations.IdleBlockHoldsItsState : Prop :=
  ∀ s : State, s.host = [] → step s = .next s

/-- A block with `ERR` nonzero answers ERR_LOCKED whatever the word, legal or not, and changes nothing else
(60_exceptions R206). -/
def Obligations.LockedBlockAnswersLocked : Prop :=
  ∀ (s : State) (cmd : Command) (rest : List HostMove),
    s.err ≠ 0 → s.host = .issue cmd :: rest → step s = .next (answeredLocked { s with host := rest })

/-- An illegal word issued to a block that is not locked raises ERR_ILLEGAL: `ERR` 1, `ERRCMD` the whole word, response
1, nothing else (60_exceptions R201; 30_encoding R76 to R78). -/
def Obligations.IllegalWordsRaiseIllegal : Prop :=
  ∀ (s : State) (cmd : Command) (rest : List HostMove),
    s.err = 0 → s.host = .issue cmd :: rest → ¬ cmd.legal → step s = .next (faulted { s with host := rest } 1 cmd)

/-- What `Issue` does, line by line; the first line that applies decides: locked, illegal, length, parameter, range,
overlap, and otherwise the command runs by its rule and the answer is OK (60_exceptions R207). -/
def Obligations.IssueAnswersInCheckOrder : Prop :=
  ∀ (s : State) (cmd : Command) (rest : List HostMove), s.host = .issue cmd :: rest →
    (step s =
      if s.err ≠ 0 then .next (answeredLocked { s with host := rest })
      else
        match decode cmd with
        | .error _ => .next (faulted { s with host := rest } 1 cmd)
        | .ok i =>
          if breaksLength i then .next (faulted { s with host := rest } 2 cmd)
          else if breaksParam i then .next (faulted { s with host := rest } 3 cmd)
          else if outOfRange s.cfg i then .next (faulted { s with host := rest } 4 cmd)
          else if unsupportedOverlap i then .next (faulted { s with host := rest } 5 cmd)
          else exec i { s with host := rest }) ∧
    ∀ i, s.err = 0 → decode cmd = .ok i → breaksLength i = false → breaksParam i = false →
      outOfRange s.cfg i = false → unsupportedOverlap i = false →
      ∃ t, step s = .next t ∧ t.reply = .response 0 ∧ t.err = 0 ∧ t.errcmd = s.errcmd

/-! ### Faults -/

/-- ERR_LENGTH is raised by B2W when `nbytes` is not a multiple of 4, before any other check, and by nothing else
(60_exceptions R202). -/
def Obligations.LengthFaultExactlyWhen : Prop :=
  ∀ (s : State) (i : Instr), s.err = 0 →
    (exec i s = .next (faulted s 2 (encode i)) ↔
      ∃ bsrc wdst nbytes, i = .b2w bsrc wdst nbytes ∧ nbytes.toNat % 4 ≠ 0)

/-- ERR_PARAM is raised by BMIX when `r = 0`, before the range and overlap checks, and by nothing else
(60_exceptions R203). -/
def Obligations.ParamFaultExactlyWhen : Prop :=
  ∀ (s : State) (i : Instr), s.err = 0 →
    (exec i s = .next (faulted s 3 (encode i)) ↔ ∃ xaddr yaddr r, i = .bmix xaddr yaddr r ∧ r.toNat = 0)

/-- ERR_RANGE is raised exactly when a region of the command is out of range by the table of R204 and no earlier check
failed, for all six commands (60_exceptions R204). -/
def Obligations.RangeFaultExactlyWhen : Prop :=
  ∀ (s : State) (i : Instr), s.err = 0 →
    (exec i s = .next (faulted s 4 (encode i)) ↔
      breaksLength i = false ∧ breaksParam i = false ∧ outOfRange s.cfg i = true)

/-- ERR_OVERLAP is raised exactly when COPY or XOR overlap backward, or BMIX's regions intersect, and no earlier check
failed (60_exceptions R205). -/
def Obligations.OverlapFaultExactlyWhen : Prop :=
  ∀ (s : State) (i : Instr), s.err = 0 →
    (exec i s = .next (faulted s 5 (encode i)) ↔
      breaksParam i = false ∧ outOfRange s.cfg i = false ∧ unsupportedOverlap i = true)

/-- An `Issue` that raises a fault writes the code to `ERR`, its word to `ERRCMD` and the code to the response, and
nothing else; once `ERR` is nonzero no `Issue` writes either register again, so they hold the first fault
(60_exceptions R208). -/
def Obligations.FaultChangesOnlyTheStatusRegisters : Prop :=
  ∀ (s t : State) (cmd : Command) (rest : List HostMove), s.host = .issue cmd :: rest → step s = .next t →
    (s.err = 0 → t.err ≠ 0 → ∃ code, 1 ≤ code ∧ code ≤ 5 ∧ t = faulted { s with host := rest } code cmd) ∧
    (s.err ≠ 0 → t.err = s.err ∧ t.errcmd = s.errcmd)

/-- Once nonzero, `ERR` keeps its value, and `ERRCMD` with it, until the host's Reset: no command and no other host move
changes them (10_state R27, 60_exceptions R208, R210). -/
def Obligations.ErrorStaysUntilReset : Prop :=
  ∀ (s t : State), s.err ≠ 0 → s.host.head? ≠ some .reset → step s = .next t →
    t.err = s.err ∧ t.errcmd = s.errcmd

/-- After an `Issue` on a block that had not faulted, the response is OK exactly when `ERR` is still 0 (60_exceptions
R200, R208). -/
def Obligations.ResponseOkExactlyWhenNoError : Prop :=
  ∀ (s t : State) (cmd : Command) (rest : List HostMove),
    s.host = .issue cmd :: rest → step s = .next t → (t.reply = .response 0 ↔ t.err = 0)

/-! ### The commands: result, frame and every refusal -/

/-- B2W: with its length and regions right it completes, answers OK, and each word of the destination is made of four
source bytes, the one at the lowest address least significant; everything else is as before. Locked, of a wrong length
or out of range it answers so and moves nothing (40_wordcodec R101). -/
def Obligations.B2wMovesBytesIntoWords : Prop :=
  ∀ (s : State) (bsrc wdst nbytes : Word),
    (s.err = 0 → nbytes.toNat % 4 = 0 → bsrc.toNat + nbytes.toNat ≤ s.cfg.bmemBytes →
      wdst.toNat + nbytes.toNat / 4 ≤ s.cfg.wmemWords →
      ∃ t, exec (.b2w bsrc wdst nbytes) s = .next t ∧
        t = { s with w := t.w, reply := .response 0, free := t.free } ∧
        (∀ a, (a < wdst.toNat ∨ wdst.toNat + nbytes.toNat / 4 ≤ a) → t.w.read a = s.w.read a) ∧
        ∀ j < nbytes.toNat / 4, ∀ b0 b1 b2 b3 : Byte,
          s.bm.read (bsrc.toNat + 4 * j) = some b0 → s.bm.read (bsrc.toNat + 4 * j + 1) = some b1 →
          s.bm.read (bsrc.toNat + 4 * j + 2) = some b2 → s.bm.read (bsrc.toNat + 4 * j + 3) = some b3 →
          ∃ v, t.w.read (wdst.toNat + j) = some v ∧
            v.toNat = b0.toNat + b1.toNat * 2 ^ 8 + b2.toNat * 2 ^ 16 + b3.toNat * 2 ^ 24) ∧
    (s.err ≠ 0 → exec (.b2w bsrc wdst nbytes) s = .next (answeredLocked s)) ∧
    (s.err = 0 → nbytes.toNat % 4 ≠ 0 →
      exec (.b2w bsrc wdst nbytes) s = .next (faulted s 2 (encode (.b2w bsrc wdst nbytes)))) ∧
    (s.err = 0 → nbytes.toNat % 4 = 0 →
      (s.cfg.bmemBytes < bsrc.toNat + nbytes.toNat ∨ s.cfg.wmemWords < wdst.toNat + nbytes.toNat / 4) →
      exec (.b2w bsrc wdst nbytes) s = .next (faulted s 4 (encode (.b2w bsrc wdst nbytes))))

/-- W2B: with its regions right it completes, answers OK, and each source word gives four bytes, least significant
first; everything else is as before. Locked or out of range it answers so and moves nothing (40_wordcodec R102). -/
def Obligations.W2bMovesWordsIntoBytes : Prop :=
  ∀ (s : State) (wsrc bdst nwords : Word),
    (s.err = 0 → wsrc.toNat + nwords.toNat ≤ s.cfg.wmemWords →
      bdst.toNat + 4 * nwords.toNat ≤ s.cfg.bmemBytes →
      ∃ t, exec (.w2b wsrc bdst nwords) s = .next t ∧
        t = { s with bm := t.bm, reply := .response 0, free := t.free } ∧
        (∀ a, (a < bdst.toNat ∨ bdst.toNat + 4 * nwords.toNat ≤ a) → t.bm.read a = s.bm.read a) ∧
        ∀ j < nwords.toNat, ∀ k < 4, ∀ v : Word, s.w.read (wsrc.toNat + j) = some v →
          ∃ b, t.bm.read (bdst.toNat + 4 * j + k) = some b ∧ b.toNat = v.toNat / 2 ^ (8 * k) % 2 ^ 8) ∧
    (s.err ≠ 0 → exec (.w2b wsrc bdst nwords) s = .next (answeredLocked s)) ∧
    (s.err = 0 →
      (s.cfg.wmemWords < wsrc.toNat + nwords.toNat ∨ s.cfg.bmemBytes < bdst.toNat + 4 * nwords.toNat) →
      exec (.w2b wsrc bdst nwords) s = .next (faulted s 4 (encode (.w2b wsrc bdst nwords))))

/-- COPY: with its regions in range and no backward overlap it completes, answers OK, and each destination word gets
what its source word held before the command, forward-safe overlap included; everything else is as before. Locked, out
of range or overlapping backward it answers so and moves nothing (41_blockops R121, R125). -/
def Obligations.CopyMovesWords : Prop :=
  ∀ (s : State) (srcPos dstPos len : Word),
    (s.err = 0 → srcPos.toNat + len.toNat ≤ s.cfg.wmemWords → dstPos.toNat + len.toNat ≤ s.cfg.wmemWords →
      ¬ (srcPos.toNat < dstPos.toNat ∧ dstPos.toNat < srcPos.toNat + len.toNat) →
      ∃ t, exec (.copy srcPos dstPos len) s = .next t ∧
        t = { s with w := t.w, reply := .response 0, free := t.free } ∧
        (∀ a, (a < dstPos.toNat ∨ dstPos.toNat + len.toNat ≤ a) → t.w.read a = s.w.read a) ∧
        ∀ i < len.toNat, ∀ u, s.w.read (srcPos.toNat + i) = some u → t.w.read (dstPos.toNat + i) = some u) ∧
    (s.err ≠ 0 → exec (.copy srcPos dstPos len) s = .next (answeredLocked s)) ∧
    (s.err = 0 → (s.cfg.wmemWords < srcPos.toNat + len.toNat ∨ s.cfg.wmemWords < dstPos.toNat + len.toNat) →
      exec (.copy srcPos dstPos len) s = .next (faulted s 4 (encode (.copy srcPos dstPos len)))) ∧
    (s.err = 0 → srcPos.toNat + len.toNat ≤ s.cfg.wmemWords → dstPos.toNat + len.toNat ≤ s.cfg.wmemWords →
      srcPos.toNat < dstPos.toNat → dstPos.toNat < srcPos.toNat + len.toNat →
      exec (.copy srcPos dstPos len) s = .next (faulted s 5 (encode (.copy srcPos dstPos len))))

/-- XOR: with its regions in range and no backward overlap it completes, answers OK, and each destination word is
combined with what its source word held before the command; everything else is as before. Locked, out of range or
overlapping backward it answers so and changes nothing (41_blockops R122, R125). -/
def Obligations.XorCombinesWords : Prop :=
  ∀ (s : State) (srcPos dstPos len : Word),
    (s.err = 0 → srcPos.toNat + len.toNat ≤ s.cfg.wmemWords → dstPos.toNat + len.toNat ≤ s.cfg.wmemWords →
      ¬ (srcPos.toNat < dstPos.toNat ∧ dstPos.toNat < srcPos.toNat + len.toNat) →
      ∃ t, exec (.xor srcPos dstPos len) s = .next t ∧
        t = { s with w := t.w, reply := .response 0, free := t.free } ∧
        (∀ a, (a < dstPos.toNat ∨ dstPos.toNat + len.toNat ≤ a) → t.w.read a = s.w.read a) ∧
        ∀ i < len.toNat, ∀ d u, s.w.read (dstPos.toNat + i) = some d → s.w.read (srcPos.toNat + i) = some u →
          t.w.read (dstPos.toNat + i) = some (d ^^^ u)) ∧
    (s.err ≠ 0 → exec (.xor srcPos dstPos len) s = .next (answeredLocked s)) ∧
    (s.err = 0 → (s.cfg.wmemWords < srcPos.toNat + len.toNat ∨ s.cfg.wmemWords < dstPos.toNat + len.toNat) →
      exec (.xor srcPos dstPos len) s = .next (faulted s 4 (encode (.xor srcPos dstPos len)))) ∧
    (s.err = 0 → srcPos.toNat + len.toNat ≤ s.cfg.wmemWords → dstPos.toNat + len.toNat ≤ s.cfg.wmemWords →
      srcPos.toNat < dstPos.toNat → dstPos.toNat < srcPos.toNat + len.toNat →
      exec (.xor srcPos dstPos len) s = .next (faulted s 5 (encode (.xor srcPos dstPos len))))

/-- SALSA: with its block in range it completes, answers OK, and a written block is replaced by its `Salsa20_8`;
everything else but the hidden `x` is as before. Locked or out of range it answers so and changes nothing
(42_salsa20_8 R146). -/
def Obligations.SalsaMixesItsBlock : Prop :=
  ∀ (s : State) (addr : Word),
    (s.err = 0 → addr.toNat + 16 ≤ s.cfg.wmemWords →
      ∃ t, exec (.salsa addr) s = .next t ∧
        t = { s with w := t.w, x := t.x, reply := .response 0, free := t.free } ∧
        (∀ a, (a < addr.toNat ∨ addr.toNat + 16 ≤ a) → t.w.read a = s.w.read a) ∧
        ∀ b : Block, s.holdsBlock addr.toNat b → t.holdsBlock addr.toNat (salsa20_8 b) ∧ t.x = permute b) ∧
    (s.err ≠ 0 → exec (.salsa addr) s = .next (answeredLocked s)) ∧
    (s.err = 0 → s.cfg.wmemWords < addr.toNat + 16 →
      exec (.salsa addr) s = .next (faulted s 4 (encode (.salsa addr))))

/-- BMIX: with `r` at least 1 and its regions in range and disjoint it completes and answers OK; from written input
blocks the Y region ends with the chained slots in slot order and the X region with the even slots, then the odd ones;
everything else but the hidden `T` and `x` is as before (43_blockmix R161, R162, R163). That `T` is held in State and
ends with the last slot is R164's remark on the hidden register, which the model keeps as a field (log entry 5). -/
def Obligations.BmixMixesItsChunk : Prop :=
  ∀ (s : State) (xaddr yaddr r : Word),
    s.err = 0 → 1 ≤ r.toNat → xaddr.toNat + 32 * r.toNat ≤ s.cfg.wmemWords →
      yaddr.toNat + 32 * r.toNat ≤ s.cfg.wmemWords →
      ¬ (xaddr.toNat < yaddr.toNat + 32 * r.toNat ∧ yaddr.toNat < xaddr.toNat + 32 * r.toNat) →
      ∃ t, exec (.bmix xaddr yaddr r) s = .next t ∧
        t = { s with w := t.w, x := t.x, t := t.t, reply := .response 0, free := t.free } ∧
        (∀ a, (a < xaddr.toNat ∨ xaddr.toNat + 32 * r.toNat ≤ a) →
          (a < yaddr.toNat ∨ yaddr.toNat + 32 * r.toNat ≤ a) → t.w.read a = s.w.read a) ∧
        ∀ X : Nat → Block, (∀ i < 2 * r.toNat, s.holdsBlock (xaddr.toNat + 16 * i) (X i)) →
          (∀ i < 2 * r.toNat, t.holdsBlock (yaddr.toNat + 16 * i) (slot X (X (2 * r.toNat - 1)) i)) ∧
          (∀ i < r.toNat, t.holdsBlock (xaddr.toNat + 16 * i) (slot X (X (2 * r.toNat - 1)) (2 * i))) ∧
          (∀ i < r.toNat,
            t.holdsBlock (xaddr.toNat + 16 * (r.toNat + i)) (slot X (X (2 * r.toNat - 1)) (2 * i + 1))) ∧
          t.t = slot X (X (2 * r.toNat - 1)) (2 * r.toNat - 1)

/-- BMIX's refusals: locked, `r = 0`, out of range and overlapping, each before anything is touched (43_blockmix R162,
R163). -/
def Obligations.BmixRefusals : Prop :=
  ∀ (s : State) (xaddr yaddr r : Word),
    (s.err ≠ 0 → exec (.bmix xaddr yaddr r) s = .next (answeredLocked s)) ∧
    (s.err = 0 → r.toNat = 0 →
      exec (.bmix xaddr yaddr r) s = .next (faulted s 3 (encode (.bmix xaddr yaddr r)))) ∧
    (s.err = 0 → 1 ≤ r.toNat →
      (s.cfg.wmemWords < xaddr.toNat + 32 * r.toNat ∨ s.cfg.wmemWords < yaddr.toNat + 32 * r.toNat) →
      exec (.bmix xaddr yaddr r) s = .next (faulted s 4 (encode (.bmix xaddr yaddr r)))) ∧
    (s.err = 0 → 1 ≤ r.toNat → xaddr.toNat + 32 * r.toNat ≤ s.cfg.wmemWords →
      yaddr.toNat + 32 * r.toNat ≤ s.cfg.wmemWords →
      xaddr.toNat < yaddr.toNat + 32 * r.toNat → yaddr.toNat < xaddr.toNat + 32 * r.toNat →
      exec (.bmix xaddr yaddr r) s = .next (faulted s 5 (encode (.bmix xaddr yaddr r))))

/-! ### The Salsa20/8 core -/

/-- One update changes the destination word alone, to itself xor the rotated wrapping sum of the two sources, its three
indices are different, and in a sequence it works on what the updates before it left (42_salsa20_8 R142). The wrap of
the sum (R141, 93 G2), the rotation (00_scope R12, 93 G3) and the indices of the 32 updates (R143, 93 G1) are passages
the spec marks as from general knowledge (log entry 12). -/
def Obligations.UpdateChangesOneWord : Prop :=
  ∀ (x : Block) (u : Update), u ∈ columnRound ++ rowRound →
    (u.d ≠ u.a ∧ u.d ≠ u.b ∧ u.a ≠ u.b) ∧
    (applyUpdate x u).get u.d =
      x.get u.d ^^^ (BitVec.ofNat 32 ((x.get u.a).toNat + (x.get u.b).toNat)).rotateLeft u.k ∧
    (∀ j : Fin 16, j ≠ u.d → (applyUpdate x u).get j = x.get j) ∧
    ∀ us : List Update, applyUpdates (us ++ [u]) x = applyUpdate (applyUpdates us x) u

/-- The table of 32 updates is the column round and then the row round of quarter-rounds on the 4 by 4 matrix
(42_salsa20_8 R143, the pattern it explains). -/
def Obligations.DoubleRoundIsColumnsThenRows : Prop :=
  ∀ x : Block, doubleRound x = rowsOnce (columnsOnce x)

/-- `Salsa20_8` is four double-rounds of quarter-rounds and then the word-wise addition of the input modulo 2^32
(42_salsa20_8 R144, R145; 90_conflicts C1, C2, C3). -/
def Obligations.CoreIsFourDoubleRoundsPlusInput : Prop :=
  ∀ (b : Block) (k : Fin 16),
    ((salsa20_8 b).get k).toNat =
      ((((rowsOnce ∘ columnsOnce)^[4] b).get k).toNat + (b.get k).toNat) % 2 ^ 32

/-- The core on the published block, and on the two blocks that show its additions wrap and that it is not injective
(95_test_vectors G4-s, S1, S6; 42_salsa20_8 R146 corner cases). -/
def Obligations.CoreKnownAnswers : Prop :=
  salsa20_8 #v[0x219a877e, 0x86c93e4f, 0xe640a97c, 0x268f7141, 0x5b55eeba, 0xb5c1618c, 0x1146f80d, 0x1d3bcd6d,
      0x19f324ee, 0x853d9bdf, 0x4b1e1214, 0x32aac55a, 0x291d0276, 0x2948c709, 0x8dc6ebed, 0x5ec2b8b8] =
    #v[0x9c851fa4, 0x99cc0866, 0xcbca813b, 0x05ef0c02, 0x81214b04, 0x7d33fda2, 0x631c7bfd, 0x292f6896,
      0x683139b4, 0xbce6c9e3, 0xb7c56bfe, 0xba966da0, 0x10cc24e4, 0x5c74912c, 0x3d67ad24, 0x818f61c7] ∧
  salsa20_8 (Vector.replicate 16 0) = Vector.replicate 16 0 ∧
  salsa20_8 (Vector.replicate 16 0x80000000) = Vector.replicate 16 0

/-- SALSA's result is a function of the sixteen input words alone: on two blocks of any sizes, at any two addresses,
equal written input gives equal output; issued twice it applies the function twice (42_salsa20_8 R147). -/
def Obligations.SalsaDependsOnItsBlockAlone : Prop :=
  ∀ (s s' : State) (addr addr' : Word) (b : Block),
    s.err = 0 → s'.err = 0 → addr.toNat + 16 ≤ s.cfg.wmemWords → addr'.toNat + 16 ≤ s'.cfg.wmemWords →
    s.holdsBlock addr.toNat b → s'.holdsBlock addr'.toNat b →
    ∃ t t' u, exec (.salsa addr) s = .next t ∧ exec (.salsa addr') s' = .next t' ∧ exec (.salsa addr) t = .next u ∧
      (∀ k < 16, t.w.read (addr.toNat + k) = t'.w.read (addr'.toNat + k)) ∧
      u.holdsBlock addr.toNat (salsa20_8 (salsa20_8 b)) ∧
      (∀ a, (a < addr.toNat ∨ addr.toNat + 16 ≤ a) → t.w.read a = s.w.read a) ∧ t.bm = s.bm

/-! ### BlockMix as a whole -/

/-- The regions after BMIX are a function of the X region before it and of `r` alone: two blocks of any sizes and any
two layouts agree, word for word, whatever else their memories hold (43_blockmix R165). -/
def Obligations.BmixDependsOnItsChunkAlone : Prop :=
  ∀ (s s' t t' : State) (xaddr yaddr xaddr' yaddr' r : Word),
    exec (.bmix xaddr yaddr r) s = .next t → exec (.bmix xaddr' yaddr' r) s' = .next t' →
    t.reply = .response 0 → t'.reply = .response 0 →
    (∀ k < 32 * r.toNat, (s.w.read (xaddr.toNat + k)).isSome ∧
      s.w.read (xaddr.toNat + k) = s'.w.read (xaddr'.toNat + k)) →
    (∀ k < 32 * r.toNat, t.w.read (xaddr.toNat + k) = t'.w.read (xaddr'.toNat + k) ∧
      t.w.read (yaddr.toNat + k) = t'.w.read (yaddr'.toNat + k)) ∧
    (∀ a, (a < xaddr.toNat ∨ xaddr.toNat + 32 * r.toNat ≤ a) →
      (a < yaddr.toNat ∨ yaddr.toNat + 32 * r.toNat ≤ a) → t.w.read a = s.w.read a) ∧ t.bm = s.bm

/-- BMIX leaves the X and Y regions exactly as the sequence of COPY, XOR and SALSA commands of R164 does, with a spare
block disjoint from both regions; no command of the sequence faults, so each executes in full (43_blockmix R164). The
spare block ends with what BMIX leaves in the hidden `T`, which the model keeps as a field (log entry 5). -/
def Obligations.BmixEqualsItsCommandSequence : Prop :=
  ∀ (s : State) (xaddr yaddr r : Word) (spare : Nat),
    s.cfg.bounded → s.err = 0 → 1 ≤ r.toNat →
    xaddr.toNat + 32 * r.toNat ≤ s.cfg.wmemWords → yaddr.toNat + 32 * r.toNat ≤ s.cfg.wmemWords →
    spare + 16 ≤ s.cfg.wmemWords →
    (xaddr.toNat + 32 * r.toNat ≤ yaddr.toNat ∨ yaddr.toNat + 32 * r.toNat ≤ xaddr.toNat) →
    (xaddr.toNat + 32 * r.toNat ≤ spare ∨ spare + 16 ≤ xaddr.toNat) →
    (yaddr.toNat + 32 * r.toNat ≤ spare ∨ spare + 16 ≤ yaddr.toNat) →
    (∀ k < 32 * r.toNat, (s.w.read (xaddr.toNat + k)).isSome) →
    ∃ t u, exec (.bmix xaddr yaddr r) s = .next t ∧
      execAll (blockMixCommands xaddr.toNat yaddr.toNat r.toNat spare) s = some u ∧ u.err = 0 ∧
      (∀ k < 32 * r.toNat, u.w.read (xaddr.toNat + k) = t.w.read (xaddr.toNat + k) ∧
        u.w.read (yaddr.toNat + k) = t.w.read (yaddr.toNat + k)) ∧
      u.holdsBlock spare t.t

/-- With `r = 1` the de-interleave is the identity on block order: the regions end equal (43_blockmix R162, corner
cases). -/
def Obligations.BmixOfTwoBlocksLeavesEqualRegions : Prop :=
  ∀ (s t : State) (xaddr yaddr : Word),
    exec (.bmix xaddr yaddr 1) s = .next t → t.reply = .response 0 →
    (∀ k < 32, (s.w.read (xaddr.toNat + k)).isSome) →
    ∀ k < 32, t.w.read (xaddr.toNat + k) = t.w.read (yaddr.toNat + k)

/-! ### Laws between commands -/

/-- The codec's round trip, bytes to words to bytes and words to bytes to words (40_wordcodec R103). -/
def Obligations.CodecRoundTrip : Prop :=
  ∀ (s : State) (b w d nbytes nwords : Word),
    s.err = 0 → nbytes.toNat = 4 * nwords.toNat → w.toNat + nwords.toNat ≤ s.cfg.wmemWords →
    b.toNat + nbytes.toNat ≤ s.cfg.bmemBytes →
    (d.toNat + nbytes.toNat ≤ s.cfg.bmemBytes →
      (∀ k < nbytes.toNat, (s.bm.read (b.toNat + k)).isSome) →
      ∃ t u, exec (.b2w b w nbytes) s = .next t ∧ exec (.w2b w d nwords) t = .next u ∧
        ∀ k < nbytes.toNat, u.bm.read (d.toNat + k) = s.bm.read (b.toNat + k)) ∧
    (d.toNat + nwords.toNat ≤ s.cfg.wmemWords →
      (∀ j < nwords.toNat, (s.w.read (w.toNat + j)).isSome) →
      ∃ t u, exec (.w2b w b nwords) s = .next t ∧ exec (.b2w b d nbytes) t = .next u ∧
        ∀ j < nwords.toNat, u.w.read (d.toNat + j) = s.w.read (w.toNat + j))

/-- The laws of R124 on disjoint written regions: XOR twice restores the destination, COPY and then XOR clears it;
COPY and XOR with the same operands fault alike; neither changes a cell outside the destination (41_blockops R124). -/
def Obligations.BlockOpsLaws : Prop :=
  ∀ (s : State) (src dst len : Word),
    (s.err = 0 → src.toNat + len.toNat ≤ s.cfg.wmemWords → dst.toNat + len.toNat ≤ s.cfg.wmemWords →
      (src.toNat + len.toNat ≤ dst.toNat ∨ dst.toNat + len.toNat ≤ src.toNat) →
      (∀ i < len.toNat, (s.w.read (src.toNat + i)).isSome) →
      ((∀ i < len.toNat, (s.w.read (dst.toNat + i)).isSome) →
        ∃ t u, exec (.xor src dst len) s = .next t ∧ exec (.xor src dst len) t = .next u ∧
          ∀ i < len.toNat, u.w.read (dst.toNat + i) = s.w.read (dst.toNat + i)) ∧
      ∃ t u, exec (.copy src dst len) s = .next t ∧ exec (.xor src dst len) t = .next u ∧
        ∀ i < len.toNat, u.w.read (dst.toNat + i) = some 0) ∧
    (∃ t u, exec (.copy src dst len) s = .next t ∧ exec (.xor src dst len) s = .next u ∧
      t.reply = u.reply ∧ t.err = u.err ∧
      ∀ a, (a < dst.toNat ∨ dst.toNat + len.toNat ≤ a) →
        t.w.read a = s.w.read a ∧ u.w.read a = s.w.read a)

/-! ### The machine as a whole -/

/-- Every step keeps the invariant: allowed sizes, both memories canonical and inside their sizes, `ERR` and `ERRCMD`
both 0 or the first fault and the command that the fault is decided from (10_state R20, R27, R28). -/
def Obligations.StepKeepsInvariant : Prop :=
  ∀ s t : State, s.Inv → step s = .next t → t.Inv

/-- The invariant holds right after reset, for every allowed size and whatever the host will do (10_state R33). -/
def Obligations.ResetMeetsInvariant : Prop :=
  State.reset.Inv ∧ ∀ (cfg : Config) (moves : List HostMove), cfg.bounded → (State.boot cfg moves).Inv

/-- Every command ends, with one of the seven responses (70_reset_and_hazards R245, 60_exceptions R200). -/
def Obligations.EveryCommandAnswers : Prop :=
  ∀ (i : Instr) (s : State), ∃ t code, exec i s = .next t ∧ t.reply = .response code ∧ code.toNat ≤ 6

/-- A step always goes on, but for a host access to a cell that does not exist, which stops the model by name; nothing
is refused (20_memory R57; that the model faults there is its own choice, log entry 9). -/
def Obligations.StepStopsOnlyOutsideMemory : Prop :=
  ∀ s : State,
    (∃ t, step s = .next t) ∨
    ∃ a rest, step s = .fault (.hostAddressOutsideMemory a) ∧
      (((s.host = .rdW a :: rest ∨ ∃ v, s.host = .wrW a v :: rest) ∧ s.cfg.wmemWords ≤ a) ∨
        ((s.host = .rdB a :: rest ∨ ∃ v, s.host = .wrB a v :: rest) ∧ s.cfg.bmemBytes ≤ a))

/-- No step changes the sizes (00_scope R6, R7; 10_state R34). -/
def Obligations.SizesNeverChange : Prop :=
  ∀ s t : State, step s = .next t → t.cfg = s.cfg

/-- Of the commands only W2B writes `BM`, and it leaves `W` alone (10_state R23, 20_memory R40). -/
def Obligations.OnlyW2bWritesBytes : Prop :=
  ∀ (i : Instr) (s t : State), exec i s = .next t →
    ((∀ wsrc bdst nwords, i ≠ .w2b wsrc bdst nwords) → t.bm = s.bm) ∧
    ((∃ wsrc bdst nwords, i = .w2b wsrc bdst nwords) → t.w = s.w)

/-- Of the commands only B2W reads `BM` (10_state R23, 20_memory R45). COPY, XOR, SALSA and BMIX do the same whatever it
holds and leave it as it is. W2B does the same to everything else whatever `BM` holds; the bytes it writes when it
executes are the same, and every other byte stays as it was. A cell of `W` that nothing has written reads as the same
free value in both runs (log entry 3). -/
def Obligations.OnlyB2wReadsBytes : Prop :=
  ∀ (i : Instr) (s t : State) (m : Memory Byte),
    (∀ bsrc wdst nbytes, i ≠ .b2w bsrc wdst nbytes) → exec i s = .next t →
    ((∀ wsrc bdst nwords, i ≠ .w2b wsrc bdst nwords) → exec i { s with bm := m } = .next { t with bm := m }) ∧
    ∃ m' : Memory Byte, exec i { s with bm := m } = .next { t with bm := m' } ∧
      ∀ a, m'.read a = if t.reply = .response 0 ∧ byteWritten i a = true then t.bm.read a else m.read a

/-- The hidden registers are not observable: with any other values in `S` and `T` a step does the same to everything
else (10_state R26); the two runs read the same free values (log entry 3). -/
def Obligations.HiddenRegistersUnobservable : Prop :=
  ∀ (s u : State) (x t : Block), step s = .next u →
    ∃ x' t', step { s with x := x, t := t } = .next { u with x := x', t := t' }

/-- Whether a command faults, and how, is decided by the word, the sizes and `ERR` alone, never by a value in memory
(60_exceptions R200). -/
def Obligations.ResponseDecidedWithoutData : Prop :=
  ∀ (i : Instr) (s s' t t' : State), s.cfg = s'.cfg → s.err = s'.err →
    exec i s = .next t → exec i s' = .next t' → t.reply = t'.reply

/-- A cell that has been written stays written, and a command that answers OK leaves its destination written, whatever
its sources held: a cell computed from an unwritten one counts as written (20_memory R49; the model's reading, log
entry 4). -/
def Obligations.CommandsLeaveCellsWritten : Prop :=
  ∀ (i : Instr) (s t : State) (a : Nat), exec i s = .next t →
    ((s.w.read a).isSome → (t.w.read a).isSome) ∧ ((s.bm.read a).isSome → (t.bm.read a).isSome) ∧
    (t.reply = .response 0 →
      (wordWritten i a = true → (t.w.read a).isSome) ∧ (byteWritten i a = true → (t.bm.read a).isSome))

/-- Over `k` moves without a Reset from a block that has not faulted, every response was OK exactly when `ERR` is 0 at
the end (70_reset_and_hazards R244). -/
def Obligations.GoodRunEndsWithoutError : Prop :=
  ∀ (k : Nat) (s t : State), s.err = 0 → s.reply.okOrSilent = true → HostMove.reset ∉ s.host →
    core.run k s = .next t → (goodRun k s = true ↔ t.err = 0)

/-! ### The host's ports and reset -/

/-- Host writes of a cell that exists put the value there, change that cell only and return nothing, locked or not
(20_memory R55, R49). -/
def Obligations.HostWritesOneCell : Prop :=
  ∀ (s : State) (rest : List HostMove) (a : Nat),
    (∀ v : Word, s.host = .wrW a v :: rest → a < s.cfg.wmemWords →
      ∃ t, step s = .next t ∧ t = { s with w := t.w, host := rest, reply := .none } ∧ t.w.read a = some v ∧
        ∀ b, b ≠ a → t.w.read b = s.w.read b) ∧
    (∀ v : Byte, s.host = .wrB a v :: rest → a < s.cfg.bmemBytes →
      ∃ t, step s = .next t ∧ t = { s with bm := t.bm, host := rest, reply := .none } ∧ t.bm.read a = some v ∧
        ∀ b, b ≠ a → t.bm.read b = s.bm.read b)

/-- Host reads of a cell that has been written return it and change no state, locked or not (20_memory R55, R49); the
counter is the model's own (log entry 3). -/
def Obligations.HostReadsReturnTheCell : Prop :=
  ∀ (s : State) (rest : List HostMove) (a : Nat),
    (∀ v : Word, s.host = .rdW a :: rest → a < s.cfg.wmemWords → s.w.read a = some v →
      ∃ t, step s = .next t ∧ t = { s with host := rest, reply := .word v, free := t.free }) ∧
    (∀ v : Byte, s.host = .rdB a :: rest → a < s.cfg.bmemBytes → s.bm.read a = some v →
      ∃ t, step s = .next t ∧ t = { s with host := rest, reply := .byte v, free := t.free })

/-- The five CSR numbers read `ERR` and the four words of `ERRCMD`, and change no state (20_memory R43). -/
def Obligations.CsrReadsStatusRegisters : Prop :=
  ∀ (s : State) (rest : List HostMove) (n : Csr), s.host = .rdCsr n :: rest →
    ∃ v : Word, step s = .next { s with host := rest, reply := .word v } ∧
      v.toNat = match n with
        | .err => s.err.toNat
        | .errcmd0 => s.errcmd.toNat % 2 ^ 32
        | .errcmd1 => s.errcmd.toNat / 2 ^ 32 % 2 ^ 32
        | .errcmd2 => s.errcmd.toNat / 2 ^ 64 % 2 ^ 32
        | .errcmd3 => s.errcmd.toNat / 2 ^ 96

/-- A host access to a cell that does not exist stops the model under its own name (20_memory R57; the model's choice,
log entry 9). -/
def Obligations.HostAddressOutsideMemoryStops : Prop :=
  ∀ (s : State) (rest : List HostMove) (a : Nat),
    ((s.host = .rdW a :: rest ∨ ∃ v, s.host = .wrW a v :: rest) → s.cfg.wmemWords ≤ a →
      step s = .fault (.hostAddressOutsideMemory a)) ∧
    ((s.host = .rdB a :: rest ∨ ∃ v, s.host = .wrB a v :: rest) → s.cfg.bmemBytes ≤ a →
      step s = .fault (.hostAddressOutsideMemory a))

/-- Reset clears `ERR` and `ERRCMD`, makes every cell of both memories unwritten whether or not it had been written,
answers nothing, and leaves the block accepting commands (70_reset_and_hazards R230, R231; that the sizes and the host's
list stay is log entries 1 and 6). -/
def Obligations.ResetClearsTheBlock : Prop :=
  ∀ (s : State) (rest : List HostMove), s.host = .reset :: rest →
    ∃ t, step s = .next t ∧ t.err = 0 ∧ t.errcmd = 0 ∧ (∀ a, t.w.read a = none) ∧ (∀ a, t.bm.read a = none) ∧
      t.reply = .none ∧ t.host = rest ∧ t.cfg = s.cfg

/-- The state after reset: `ERR` and `ERRCMD` 0 and no cell written (10_state R33); that no move is pending, that
nothing has been answered and the sizes are the model's choice (log entries 1, 6, 7). -/
def Obligations.StateAfterReset : Prop :=
  State.reset.err = 0 ∧ State.reset.errcmd = 0 ∧ (∀ a, State.reset.w.read a = none) ∧
    (∀ a, State.reset.bm.read a = none) ∧ State.reset.host = [] ∧ State.reset.reply = .none ∧
    State.reset.cfg = ⟨256, 256⟩
end

