-- ==== Sys2Proof/Laws/State.lean ====
section
/-! SUPPORT. One lemma per field per update of the state, all by rfl, so that no proof unfolds a record update. -/

namespace Sys2Proof.Machine

variable (s : State) (n a : Nat) (v : Word) (b : Byte) (c : BitVec 4) (f : FaultCode) (cmd : Command)

@[simp] theorem State.tick_cfg : (s.tick n).cfg = s.cfg := rfl
@[simp] theorem State.tick_w : (s.tick n).w = s.w := rfl
@[simp] theorem State.tick_bm : (s.tick n).bm = s.bm := rfl
@[simp] theorem State.tick_err : (s.tick n).err = s.err := rfl
@[simp] theorem State.tick_errcmd : (s.tick n).errcmd = s.errcmd := rfl
@[simp] theorem State.tick_x : (s.tick n).x = s.x := rfl
@[simp] theorem State.tick_t : (s.tick n).t = s.t := rfl
@[simp] theorem State.tick_host : (s.tick n).host = s.host := rfl
@[simp] theorem State.tick_reply : (s.tick n).reply = s.reply := rfl
@[simp] theorem State.tick_free : (s.tick n).free = s.free + n := rfl

@[simp] theorem State.writeW_cfg : (s.writeW a v).cfg = s.cfg := rfl
@[simp] theorem State.writeW_w : (s.writeW a v).w = s.w.write a v := rfl
@[simp] theorem State.writeW_bm : (s.writeW a v).bm = s.bm := rfl
@[simp] theorem State.writeW_err : (s.writeW a v).err = s.err := rfl
@[simp] theorem State.writeW_errcmd : (s.writeW a v).errcmd = s.errcmd := rfl
@[simp] theorem State.writeW_x : (s.writeW a v).x = s.x := rfl
@[simp] theorem State.writeW_t : (s.writeW a v).t = s.t := rfl
@[simp] theorem State.writeW_host : (s.writeW a v).host = s.host := rfl
@[simp] theorem State.writeW_reply : (s.writeW a v).reply = s.reply := rfl
@[simp] theorem State.writeW_free : (s.writeW a v).free = s.free := rfl

@[simp] theorem State.writeB_cfg : (s.writeB a b).cfg = s.cfg := rfl
@[simp] theorem State.writeB_w : (s.writeB a b).w = s.w := rfl
@[simp] theorem State.writeB_bm : (s.writeB a b).bm = s.bm.write a b := rfl
@[simp] theorem State.writeB_err : (s.writeB a b).err = s.err := rfl
@[simp] theorem State.writeB_errcmd : (s.writeB a b).errcmd = s.errcmd := rfl
@[simp] theorem State.writeB_x : (s.writeB a b).x = s.x := rfl
@[simp] theorem State.writeB_t : (s.writeB a b).t = s.t := rfl
@[simp] theorem State.writeB_host : (s.writeB a b).host = s.host := rfl
@[simp] theorem State.writeB_reply : (s.writeB a b).reply = s.reply := rfl
@[simp] theorem State.writeB_free : (s.writeB a b).free = s.free := rfl

@[simp] theorem State.respond_cfg : (s.respond c).cfg = s.cfg := rfl
@[simp] theorem State.respond_w : (s.respond c).w = s.w := rfl
@[simp] theorem State.respond_bm : (s.respond c).bm = s.bm := rfl
@[simp] theorem State.respond_err : (s.respond c).err = s.err := rfl
@[simp] theorem State.respond_errcmd : (s.respond c).errcmd = s.errcmd := rfl
@[simp] theorem State.respond_x : (s.respond c).x = s.x := rfl
@[simp] theorem State.respond_t : (s.respond c).t = s.t := rfl
@[simp] theorem State.respond_host : (s.respond c).host = s.host := rfl
@[simp] theorem State.respond_reply : (s.respond c).reply = .response c := rfl
@[simp] theorem State.respond_free : (s.respond c).free = s.free := rfl

@[simp] theorem State.raiseFault_cfg : (s.raiseFault f cmd).cfg = s.cfg := rfl
@[simp] theorem State.raiseFault_w : (s.raiseFault f cmd).w = s.w := rfl
@[simp] theorem State.raiseFault_bm : (s.raiseFault f cmd).bm = s.bm := rfl
@[simp] theorem State.raiseFault_err : (s.raiseFault f cmd).err = f.code.setWidth 32 := rfl
@[simp] theorem State.raiseFault_errcmd : (s.raiseFault f cmd).errcmd = cmd := rfl
@[simp] theorem State.raiseFault_x : (s.raiseFault f cmd).x = s.x := rfl
@[simp] theorem State.raiseFault_t : (s.raiseFault f cmd).t = s.t := rfl
@[simp] theorem State.raiseFault_host : (s.raiseFault f cmd).host = s.host := rfl
@[simp] theorem State.raiseFault_reply : (s.raiseFault f cmd).reply = .response f.code := rfl
@[simp] theorem State.raiseFault_free : (s.raiseFault f cmd).free = s.free := rfl

@[simp] theorem State.hostReset_cfg : s.hostReset.cfg = s.cfg := rfl
@[simp] theorem State.hostReset_w : s.hostReset.w = [] := rfl
@[simp] theorem State.hostReset_bm : s.hostReset.bm = [] := rfl
@[simp] theorem State.hostReset_err : s.hostReset.err = 0 := rfl
@[simp] theorem State.hostReset_errcmd : s.hostReset.errcmd = 0 := rfl
@[simp] theorem State.hostReset_host : s.hostReset.host = s.host := rfl
@[simp] theorem State.hostReset_reply : s.hostReset.reply = .none := rfl
@[simp] theorem State.hostReset_free : s.hostReset.free = s.free + 32 := rfl

@[simp] theorem State.tick_zero : s.tick 0 = s := rfl
theorem State.tick_tick (m : Nat) : (s.tick m).tick n = s.tick (m + n) := by
  simp [State.tick, Nat.add_assoc]

end Sys2Proof.Machine
end

