-- ==== Sys2Proof/Laws/Memory.lean ====
section
/-! SUPPORT. The laws of a memory: a read after a write, and that a write keeps the canonical form and the bound. -/

namespace Sys2Proof.Machine

variable {α : Type}

@[simp] theorem Memory.read_nil (a : Nat) : Memory.read a ([] : Memory α) = none := rfl

/-- A read after a write to the same cell gives the value written. -/
@[simp] theorem Memory.read_write_self (a : Nat) (v : α) (m : Memory α) :
    Memory.read a (Memory.write a v m) = some v := by
  induction m with
  | nil => simp [Memory.read, Memory.write]
  | cons p m ih =>
    rcases Nat.lt_trichotomy a p.1 with h | h | h
    · simp [Memory.write, Memory.read, h]
    · simp [Memory.write, Memory.read, h]
    · have : ¬ a < p.1 ∧ a ≠ p.1 := by omega
      simp [Memory.write, Memory.read, this.1, this.2, ih]

/-- A write leaves every other cell alone. -/
theorem Memory.read_write_ne {a b : Nat} (h : b ≠ a) (v : α) (m : Memory α) :
    Memory.read b (Memory.write a v m) = Memory.read b m := by
  induction m with
  | nil => simp [Memory.read, Memory.write, h]
  | cons p m ih =>
    rcases Nat.lt_trichotomy a p.1 with h' | h' | h'
    · simp [Memory.write, Memory.read, h', h]
    · simp [Memory.write, Memory.read, ← h', h]
    · have : ¬ a < p.1 ∧ a ≠ p.1 := by omega
      simp [Memory.write, Memory.read, this.1, this.2, ih]

theorem Memory.read_write (a b : Nat) (v : α) (m : Memory α) :
    Memory.read b (Memory.write a v m) = if b = a then some v else Memory.read b m := by
  split
  · next h => simp [h]
  · next h => exact Memory.read_write_ne h v m

theorem Memory.wf_cons {p : Nat × α} {m : Memory α} :
    Memory.wf (p :: m) = true ↔ (∀ q ∈ m.head?, p.1 < q.1) ∧ Memory.wf m = true := by
  cases m <;> simp [Memory.wf]

theorem Memory.head_write (a : Nat) (v : α) (m : Memory α) :
    ∀ q ∈ (Memory.write a v m).head?, q.1 = a ∨ ∃ p ∈ m.head?, q.1 = p.1 := by
  cases m with
  | nil => simp [Memory.write]
  | cons p m =>
    simp only [Memory.write]
    split <;> [skip; split] <;> simp_all

/-- A write keeps the canonical form. -/
theorem Memory.wf_write (a : Nat) (v : α) (m : Memory α) (h : Memory.wf m = true) :
    Memory.wf (Memory.write a v m) = true := by
  induction m with
  | nil => simp [Memory.write, Memory.wf]
  | cons p m ih =>
    obtain ⟨hlt, hm⟩ := Memory.wf_cons.mp h
    rcases Nat.lt_trichotomy a p.1 with h' | h' | h'
    · simpa [Memory.write, h', Memory.wf_cons, hm] using fun b u e => hlt (b, u) e
    · subst h'
      simpa [Memory.write, Memory.wf_cons, hm] using fun b u e => hlt (b, u) e
    · have : ¬ a < p.1 ∧ a ≠ p.1 := by omega
      simp only [Memory.write, this.1, this.2, if_false]
      refine Memory.wf_cons.mpr ⟨fun q hq => ?_, ih hm⟩
      rcases Memory.head_write a v m q hq with rfl | ⟨r, hr, e⟩
      · exact h'
      · rw [e]; exact hlt r hr

/-- A write to a cell that exists keeps the bound. -/
theorem Memory.within_write {n a : Nat} (ha : a < n) (v : α) (m : Memory α) (h : Memory.within n m = true) :
    Memory.within n (Memory.write a v m) = true := by
  induction m with
  | nil => simp [Memory.write, Memory.within, ha]
  | cons p m ih =>
    have h1 : p.1 < n ∧ Memory.within n m = true := by simpa [Memory.within] using h
    simp only [Memory.write]
    split
    · simpa [Memory.within, ha] using h
    · split
      · have := h1.2
        simp only [Memory.within, List.all_cons, Bool.and_eq_true, decide_eq_true_eq] at this ⊢
        exact ⟨ha, this⟩
      · have := ih h1.2
        simp only [Memory.within, List.all_cons, Bool.and_eq_true, decide_eq_true_eq] at this ⊢
        exact ⟨h1.1, this⟩

/-- A cell that does not exist has not been written. -/
theorem Memory.read_of_within {n a : Nat} {m : Memory α} (h : Memory.within n m = true) (ha : n ≤ a) :
    Memory.read a m = none := by
  induction m with
  | nil => rfl
  | cons p m ih =>
    have h1 : p.1 < n ∧ Memory.within n m = true := by simpa [Memory.within] using h
    have : a ≠ p.1 := by omega
    simp [Memory.read, this, ih h1.2]

end Sys2Proof.Machine
end

