-- ==== Sys2Proof/Laws/Ops.lean ====
section
/-! SUPPORT. What the shared operations can do: the counted loop, writing and reading blocks, copying, and the guard
every command goes through. -/

namespace Sys2Proof.Machine

/-! ### Peeking -/

theorem State.peekW_of_read {s : State} {a : Nat} {v : Word} (h : s.w.read a = some v) : s.peekW a = v := by
  simp [State.peekW, h]

theorem State.peekB_of_read {s : State} {a : Nat} {v : Byte} (h : s.bm.read a = some v) : s.peekB a = v := by
  simp [State.peekB, h]

/-- A peek depends on the cell and the counter alone. -/
theorem State.peekW_congr {s s' : State} {a : Nat} (h : s'.w.read a = s.w.read a) (hf : s'.free = s.free) :
    s'.peekW a = s.peekW a := by
  simp [State.peekW, h, hf]

theorem State.peekB_congr {s s' : State} {a : Nat} (h : s'.bm.read a = s.bm.read a) (hf : s'.free = s.free) :
    s'.peekB a = s.peekB a := by
  simp [State.peekB, h, hf]

/-- A block read depends on its sixteen cells and the counter alone. -/
theorem State.peekBlock_congr {s s' : State} {a : Nat} (h : ∀ k < 16, s'.w.read (a + k) = s.w.read (a + k))
    (hf : s'.free = s.free) : s'.peekBlock a = s.peekBlock a := by
  unfold State.peekBlock
  congr 1
  funext k
  exact State.peekW_congr (h k.val k.isLt) (by simp [hf])

/-- A block whose sixteen cells have been written is read as it stands. -/
theorem State.peekBlock_of_read {s : State} {a : Nat} {v : Block}
    (h : ∀ k : Fin 16, s.w.read (a + k.val) = some (v.get k)) : s.peekBlock a = v := by
  refine Vector.ext fun i hi => ?_
  have := h ⟨i, hi⟩
  simp only [State.peekBlock, Vector.getElem_ofFn]
  rw [State.peekW_of_read (v := v.get ⟨i, hi⟩) (by simpa using this)]
  rfl

/-! ### The counted loop -/

@[simp] theorem forUp_zero (body : Nat → State → State) (s : State) : forUp 0 body s = s := rfl

theorem forUp_succ (n : Nat) (body : Nat → State → State) (s : State) :
    forUp (n + 1) body s = body n (forUp n body s) := rfl

/-- Whatever every turn keeps, the loop keeps. -/
theorem forUp_keeps {P : State → Prop} {n : Nat} {body : Nat → State → State}
    (hb : ∀ i < n, ∀ s, P s → P (body i s)) {s : State} (hs : P s) : P (forUp n body s) := by
  induction n with
  | zero => exact hs
  | succ n ih => exact hb n (by omega) _ (ih fun i hi => hb i (by omega))

/-- A loop whose turn `i` reads `c` cells and writes `W[dst + i]` changes nothing but those cells and the counter, and
leaves in each the value its turn computed. -/
theorem forUp_writeW {c dst : Nat} {val : Nat → State → Word} {body : Nat → State → State}
    (hb : ∀ i s, body i s = (s.tick c).writeW (dst + i) (val i s)) (n : Nat) (s : State) :
    forUp n body s = { s with w := (forUp n body s).w, free := s.free + c * n } ∧
    (∀ a, (a < dst ∨ dst + n ≤ a) → (forUp n body s).w.read a = s.w.read a) ∧
    ∀ i < n, (forUp n body s).w.read (dst + i) = some (val i (forUp i body s)) := by
  induction n with
  | zero => exact ⟨rfl, fun _ _ => rfl, fun _ h => absurd h (Nat.not_lt_zero _)⟩
  | succ n ih =>
    obtain ⟨hf, ho, hi⟩ := ih
    rw [forUp_succ, hb]
    refine ⟨?_, fun a ha => ?_, fun i hin => ?_⟩
    · conv_lhs => rw [hf]
      simp [State.writeW, State.tick, Nat.mul_succ, Nat.add_assoc]
      rw [hf]
    · rw [State.writeW_w, Memory.read_write_ne (by omega), State.tick_w]
      exact ho a (by omega)
    · rw [State.writeW_w]
      by_cases h : i = n
      · subst h; exact Memory.read_write_self _ _ _
      · rw [Memory.read_write_ne (by omega), State.tick_w]
        exact hi i (by omega)

/-! ### Writing a block -/

/-- Writing a list of words changes those cells of `W` and nothing else. -/
theorem State.writeWords_spec (vs : List Word) (a : Nat) (s : State) :
    s.writeWords a vs = { s with w := (s.writeWords a vs).w } ∧
    (∀ b, (b < a ∨ a + vs.length ≤ b) → (s.writeWords a vs).w.read b = s.w.read b) ∧
    ∀ k (h : k < vs.length), (s.writeWords a vs).w.read (a + k) = some vs[k] := by
  induction vs generalizing a s with
  | nil => exact ⟨rfl, fun _ _ => rfl, fun _ h => absurd h (Nat.not_lt_zero _)⟩
  | cons v vs ih =>
    obtain ⟨hf, ho, hi⟩ := ih (a + 1) (s.writeW a v)
    simp only [List.length_cons]
    refine ⟨hf, fun b hb => ?_, fun k hk => ?_⟩
    · change ((s.writeW a v).writeWords (a + 1) vs).w.read b = _
      rw [ho b (by omega), State.writeW_w, Memory.read_write_ne (by omega)]
    · change ((s.writeW a v).writeWords (a + 1) vs).w.read (a + k) = _
      cases k with
      | zero => rw [ho _ (by omega)]; simp
      | succ k =>
        have := hi k (by simpa using hk)
        rw [show a + (k + 1) = a + 1 + k by omega, this]
        rfl

/-- Writing a block changes its sixteen cells of `W` and nothing else. -/
theorem State.writeBlock_spec (v : Block) (a : Nat) (s : State) :
    s.writeBlock a v = { s with w := (s.writeBlock a v).w } ∧
    (∀ b, (b < a ∨ a + 16 ≤ b) → (s.writeBlock a v).w.read b = s.w.read b) ∧
    ∀ k : Fin 16, (s.writeBlock a v).w.read (a + k.val) = some (v.get k) := by
  obtain ⟨hf, ho, hi⟩ := State.writeWords_spec v.toList a s
  have hl : v.toList.length = 16 := by simp
  rw [hl] at ho
  refine ⟨hf, ho, fun k => ?_⟩
  have := hi k.val (by rw [hl]; exact k.isLt)
  rw [State.writeBlock, this]
  simp [Vector.get, Vector.toList]

/-! ### Copying words -/

/-- `copyWords` changes the destination cells and the counter alone. -/
theorem copyWords_frame (src dst n : Nat) (s : State) :
    copyWords src dst n s = { s with w := (copyWords src dst n s).w, free := s.free + n } ∧
    ∀ a, (a < dst ∨ dst + n ≤ a) → (copyWords src dst n s).w.read a = s.w.read a := by
  have h := forUp_writeW (c := 1) (dst := dst) (val := fun i s => s.peekW (src + i))
    (body := fun i => copyCell (src + i) (dst + i)) (fun _ _ => rfl) n s
  rw [Nat.one_mul] at h
  exact ⟨h.1, h.2.1⟩

/-- When the regions do not overlap backward, every destination cell gets what its source cell gave before the command
(41_blockops R125). -/
theorem copyWords_read {src dst n : Nat} (h : ¬ (src < dst ∧ dst < src + n)) (s : State) :
    ∀ i < n, (copyWords src dst n s).w.read (dst + i) = some ((s.tick i).peekW (src + i)) := by
  intro i hi
  have h' := forUp_writeW (c := 1) (dst := dst) (val := fun i s => s.peekW (src + i))
    (body := fun i => copyCell (src + i) (dst + i)) (fun _ _ => rfl)
  have hd := (h' n s).2.2 i hi
  obtain ⟨hf, ho, -⟩ := h' i s
  refine hd.trans (congrArg some ?_)
  refine State.peekW_congr (ho _ (by omega)) ?_
  rw [hf]; simp

/-! ### Every command's guard -/

/-- The three ways a command ends (60_exceptions R207). -/
theorem runCommand_cases (i : Instr) (found : Option FaultCode) (body : State → State) (s : State) :
    (s.err ≠ 0 ∧ runCommand i found body s = .next (s.respond lockedCode)) ∨
    (s.err = 0 ∧ (∃ f, found = some f ∧ runCommand i found body s = .next (s.raiseFault f (encode i)))) ∨
    (s.err = 0 ∧ found = none ∧ runCommand i found body s = .next ((body s).respond okCode)) := by
  unfold runCommand
  split
  · next h => exact .inl ⟨h, rfl⟩
  · next h =>
    cases found with
    | none => exact .inr (.inr ⟨by simpa using h, rfl, rfl⟩)
    | some f => exact .inr (.inl ⟨by simpa using h, f, rfl, rfl⟩)

theorem runCommand_locked {i : Instr} {found : Option FaultCode} {body : State → State} {s : State} (h : s.err ≠ 0) :
    runCommand i found body s = .next (s.respond lockedCode) := by
  unfold runCommand
  rw [if_pos h]

theorem runCommand_fault {i : Instr} {f : FaultCode} {body : State → State} {s : State} (h : s.err = 0) :
    runCommand i (some f) body s = .next (s.raiseFault f (encode i)) := by
  simp [runCommand, h]

theorem runCommand_ok {i : Instr} {body : State → State} {s : State} (h : s.err = 0) :
    runCommand i none body s = .next ((body s).respond okCode) := by
  simp [runCommand, h]

end Sys2Proof.Machine
end

