-- ==== Sys2Proof/Laws/BlockMix.lean ====
section
/-! SUPPORT. What the core and the BlockMix pipeline do to the state. -/

namespace Sys2Proof.Machine

/-- `salsaAt` changes sixteen cells of `W`, the hidden `x` and the counter alone; the cells get the core of what the
block held (42_salsa20_8 R146, R147). -/
theorem salsaAt_spec (addr : Nat) (s : State) :
    salsaAt addr s =
      { s with w := (salsaAt addr s).w, x := permute (s.peekBlock addr), free := s.free + 16 } ∧
    (∀ a, (a < addr ∨ addr + 16 ≤ a) → (salsaAt addr s).w.read a = s.w.read a) ∧
    ∀ k : Fin 16, (salsaAt addr s).w.read (addr + k.val) = some ((salsa20_8 (s.peekBlock addr)).get k) := by
  obtain ⟨hf, ho, hi⟩ := State.writeBlock_spec (salsa20_8 (s.peekBlock addr)) addr
    { s.tick 16 with x := permute (s.peekBlock addr) }
  exact ⟨hf, ho, hi⟩

/-- A loop of sixteen-word copies into consecutive blocks, from sources outside all of them, changes those blocks and
the counter alone. -/
theorem forUp_copyWords {src : Nat → Nat} {dst : Nat} (n : Nat)
    (hd : ∀ i < n, src i + 16 ≤ dst ∨ dst + 16 * n ≤ src i) (s : State) :
    forUp n (fun i => copyWords (src i) (dst + 16 * i) 16) s =
      { s with w := (forUp n (fun i => copyWords (src i) (dst + 16 * i) 16) s).w, free := s.free + 16 * n } ∧
    (∀ a, (a < dst ∨ dst + 16 * n ≤ a) →
      (forUp n (fun i => copyWords (src i) (dst + 16 * i) 16) s).w.read a = s.w.read a) ∧
    ∀ i < n, ∀ k < 16, (forUp n (fun i => copyWords (src i) (dst + 16 * i) 16) s).w.read (dst + 16 * i + k) =
      some ((s.tick (16 * i + k)).peekW (src i + k)) := by
  induction n with
  | zero => exact ⟨rfl, fun _ _ => rfl, fun _ h => absurd h (Nat.not_lt_zero _)⟩
  | succ n ih =>
    obtain ⟨hf, ho, hi⟩ := ih fun i h => by have := hd i (by omega); omega
    obtain ⟨cf, co⟩ := copyWords_frame (src n) (dst + 16 * n) 16
      (forUp n (fun i => copyWords (src i) (dst + 16 * i) 16) s)
    have hn := hd n (by omega)
    have cr := copyWords_read (src := src n) (dst := dst + 16 * n) (n := 16) (by omega)
      (forUp n (fun i => copyWords (src i) (dst + 16 * i) 16) s)
    rw [forUp_succ]
    generalize forUp n (fun i => copyWords (src i) (dst + 16 * i) 16) s = p at hf ho hi cf co cr ⊢
    generalize copyWords (src n) (dst + 16 * n) 16 p = q at cf co cr ⊢
    refine ⟨?_, fun a ha => ?_, fun i h k hk => ?_⟩
    · rw [cf, hf]
      simp only [Nat.add_assoc, Nat.mul_succ]
    · rw [co a (by omega), ho a (by omega)]
    · by_cases e : i = n
      · subst e
        rw [cr k hk]
        refine congrArg some (State.peekW_congr (ho _ (by omega)) ?_)
        rw [hf]; simp [Nat.add_assoc]
      · rw [co _ (by omega), hi i (by omega) k hk]

/-- What input block `i` of a BMIX is read as in turn `i`: its cells as they stood before the command, the unwritten
ones as free values. -/
def inputBlock (s : State) (xaddr i : Nat) : Block :=
  (s.tick (16 * (i + 1))).peekBlock (xaddr + 16 * i)

/-- After `n` turns of step 2 the first `n` slots of the Y region hold the chain, `T` holds the last of them, and
nothing else of memory has changed. -/
theorem mixPhase_turns {xaddr yaddr r : Nat}
    (hd : xaddr + 32 * r ≤ yaddr ∨ yaddr + 32 * r ≤ xaddr) (s : State) (n : Nat) (hn : n ≤ 2 * r) :
    ∃ w x t, forUp n (mixSlot xaddr yaddr) (loadLast xaddr r s) =
        { s with w := w, x := x, t := t, free := s.free + 16 * (n + 1) } ∧
      (∀ a, (a < yaddr ∨ yaddr + 16 * n ≤ a) → Memory.read a w = s.w.read a) ∧
      (∀ i < n, ∀ k : Fin 16, Memory.read (yaddr + 16 * i + k.val) w =
        some ((slot (inputBlock s xaddr) (s.peekBlock (xaddr + (2 * r - 1) * 16)) i).get k)) ∧
      t = (match n with
        | 0 => s.peekBlock (xaddr + (2 * r - 1) * 16)
        | i + 1 => slot (inputBlock s xaddr) (s.peekBlock (xaddr + (2 * r - 1) * 16)) i) := by
  induction n with
  | zero => exact ⟨s.w, s.x, _, rfl, fun _ _ => rfl, fun _ h => absurd h (Nat.not_lt_zero _), rfl⟩
  | succ n ih =>
    obtain ⟨w, x, t, hf, ho, hi, ht⟩ := ih (by omega)
    rw [forUp_succ, hf]
    generalize hp : ({ s with w := w, x := x, t := t, free := s.free + 16 * (n + 1) } : State) = p
    have hpw : p.w = w := by rw [← hp]
    have hpt : p.t = t := by rw [← hp]
    have hb : p.peekBlock (xaddr + 16 * n) = inputBlock s xaddr n := by
      refine State.peekBlock_congr (fun k hk => ?_) (by rw [← hp]; rfl)
      rw [hpw]
      exact ho _ (by omega)
    have hs : salsa20_8 (xorBlock p.t (p.peekBlock (xaddr + 16 * n))) =
        slot (inputBlock s xaddr) (s.peekBlock (xaddr + (2 * r - 1) * 16)) n := by
      rw [hb, hpt, ht]
      cases n <;> rfl
    obtain ⟨wf, wo, wi⟩ := State.writeBlock_spec (salsa20_8 (xorBlock p.t (p.peekBlock (xaddr + 16 * n))))
      (yaddr + 16 * n)
      { p.tick 16 with
        x := permute (xorBlock p.t (p.peekBlock (xaddr + 16 * n)))
        t := salsa20_8 (xorBlock p.t (p.peekBlock (xaddr + 16 * n))) }
    refine ⟨(mixSlot xaddr yaddr n p).w, permute (xorBlock p.t (p.peekBlock (xaddr + 16 * n))), _, wf.trans ?_,
      fun a ha => ?_, fun i hin k => ?_, hs⟩
    · rw [State.mk.injEq, ← hp]
      exact ⟨rfl, rfl, rfl, rfl, rfl, rfl, rfl, rfl, rfl, by simp only [State.tick]; omega⟩
    · refine (wo a (by omega)).trans ?_
      rw [State.tick_w, hpw]
      exact ho a (by omega)
    · by_cases e : i = n
      · subst e
        exact (wi k).trans (by rw [hs])
      · have := k.isLt
        refine (wo _ (by omega)).trans ?_
        rw [State.tick_w, hpw]
        exact hi i (by omega) k

/-- BlockMix on disjoint regions changes them, the hidden registers and the counter alone: the Y region ends with the
slots in slot order, the X region with the even slots and then the odd ones (43_blockmix R161, R165). -/
theorem blockMix_spec {xaddr yaddr r : Nat} (hr : 1 ≤ r)
    (hd : xaddr + 32 * r ≤ yaddr ∨ yaddr + 32 * r ≤ xaddr) (s : State) :
    ∃ w x, blockMix xaddr yaddr r s =
        { s with
          w := w
          x := x
          t := slot (inputBlock s xaddr) (s.peekBlock (xaddr + (2 * r - 1) * 16)) (2 * r - 1)
          free := s.free + 16 * (4 * r + 1) } ∧
      (∀ a, (a < xaddr ∨ xaddr + 32 * r ≤ a) → (a < yaddr ∨ yaddr + 32 * r ≤ a) →
        Memory.read a w = s.w.read a) ∧
      (∀ i < 2 * r, ∀ k : Fin 16, Memory.read (yaddr + 16 * i + k.val) w =
        some ((slot (inputBlock s xaddr) (s.peekBlock (xaddr + (2 * r - 1) * 16)) i).get k)) ∧
      (∀ i < r, ∀ k : Fin 16, Memory.read (xaddr + 16 * i + k.val) w =
        some ((slot (inputBlock s xaddr) (s.peekBlock (xaddr + (2 * r - 1) * 16)) (2 * i)).get k)) ∧
      (∀ i < r, ∀ k : Fin 16, Memory.read (xaddr + 16 * (r + i) + k.val) w =
        some ((slot (inputBlock s xaddr) (s.peekBlock (xaddr + (2 * r - 1) * 16)) (2 * i + 1)).get k)) := by
  obtain ⟨w, x, t, hf, ho, hi, ht⟩ := mixPhase_turns hd s (2 * r) (Nat.le_refl _)
  generalize hc : slot (inputBlock s xaddr) (s.peekBlock (xaddr + (2 * r - 1) * 16)) = chain at hi ht ⊢
  have ht' : t = chain (2 * r - 1) := by
    obtain ⟨m, rfl⟩ : ∃ m, r = m + 1 := ⟨r - 1, by omega⟩
    exact ht
  change ∃ w x, deinterleave xaddr yaddr r (forUp (2 * r) (mixSlot xaddr yaddr) (loadLast xaddr r s)) = _ ∧ _
  rw [hf]
  generalize hp : ({ s with w := w, x := x, t := t, free := s.free + 16 * (2 * r + 1) } : State) = p
  have hpw : p.w = w := by rw [← hp]
  obtain ⟨ef, eo, ei⟩ := forUp_copyWords (src := fun i => yaddr + 16 * (2 * i)) (dst := xaddr) r
    (fun i h => by omega) p
  generalize hq : forUp r (fun i => copyWords (yaddr + 16 * (2 * i)) (xaddr + 16 * i) 16) p = q at ef eo ei
  obtain ⟨of, oo, oi⟩ := forUp_copyWords (src := fun i => yaddr + 16 * (2 * i + 1)) (dst := xaddr + 16 * r) r
    (fun i h => by omega) q
  have hl : deinterleave xaddr yaddr r p =
      forUp r (fun i => copyWords (yaddr + 16 * (2 * i + 1)) (xaddr + 16 * r + 16 * i) 16) q := by
    rw [← hq]
    simp [deinterleave, Nat.mul_add, Nat.add_assoc]
  rw [hl]
  have hY : ∀ i < 2 * r, ∀ k : Fin 16, p.w.read (yaddr + 16 * i + k.val) = some ((chain i).get k) := by
    intro i h k; rw [hpw]; exact hi i h k
  refine ⟨(forUp r (fun i => copyWords (yaddr + 16 * (2 * i + 1)) (xaddr + 16 * r + 16 * i) 16) q).w, x,
    of.trans ?_, fun a hx hy => ?_, fun i h k => ?_, fun i h k => ?_, fun i h k => ?_⟩
  · rw [State.mk.injEq] at ef ⊢
    obtain ⟨h1, -, h3, h4, h5, h6, h7, h8, h9, h10⟩ := ef
    rw [h1, h3, h4, h5, h6, h7, h8, h9, h10, ← hp]
    exact ⟨rfl, rfl, rfl, rfl, rfl, rfl, ht', rfl, rfl, by simp only; omega⟩
  · rw [oo a (by omega), eo a (by omega), hpw]
    exact ho a (by omega)
  · have := k.isLt
    rw [oo _ (by omega), eo _ (by omega), hY i h k]
  · have := k.isLt
    rw [oo _ (by omega), ei i h k.val k.isLt]
    exact congrArg some (State.peekW_of_read (hY (2 * i) (by omega) k))
  · have := k.isLt
    rw [show xaddr + 16 * (r + i) + k.val = xaddr + 16 * r + 16 * i + k.val by omega, oi i h k.val k.isLt]
    refine congrArg some (State.peekW_of_read ?_)
    rw [State.tick_w, eo _ (by omega)]
    exact hY (2 * i + 1) (by omega) k

end Sys2Proof.Machine
end

