-- ==== Sys2Proof/Laws/BlockOps.lean ====
section
/-! SUPPORT. What the loop of XOR does. -/

namespace Sys2Proof.Machine

/-- `xorWords` changes the destination cells and the counter alone. -/
theorem xorWords_frame (src dst n : Nat) (s : State) :
    xorWords src dst n s = { s with w := (xorWords src dst n s).w, free := s.free + 2 * n } ∧
    ∀ a, (a < dst ∨ dst + n ≤ a) → (xorWords src dst n s).w.read a = s.w.read a := by
  have h := forUp_writeW (c := 2) (dst := dst)
    (val := fun i s => s.peekW (dst + i) ^^^ (s.tick 1).peekW (src + i))
    (body := fun i => xorCell (src + i) (dst + i)) (fun _ _ => rfl) n s
  exact ⟨h.1, h.2.1⟩

/-- When the regions do not overlap backward, every destination cell is combined with what its source cell gave before
the command (41_blockops R125). -/
theorem xorWords_read {src dst n : Nat} (h : ¬ (src < dst ∧ dst < src + n)) (s : State) :
    ∀ i < n, (xorWords src dst n s).w.read (dst + i) =
      some ((s.tick (2 * i)).peekW (dst + i) ^^^ (s.tick (2 * i + 1)).peekW (src + i)) := by
  intro i hi
  have h' := forUp_writeW (c := 2) (dst := dst)
    (val := fun i s => s.peekW (dst + i) ^^^ (s.tick 1).peekW (src + i))
    (body := fun i => xorCell (src + i) (dst + i)) (fun _ _ => rfl)
  have hd := (h' n s).2.2 i hi
  obtain ⟨hf, ho, -⟩ := h' i s
  refine hd.trans (congrArg some ?_)
  congr 1
  · exact State.peekW_congr (ho _ (by omega)) (by rw [hf]; rfl)
  · refine State.peekW_congr (ho _ (by omega)) (by rw [hf]; rfl)

end Sys2Proof.Machine
end

