-- ==== Sys2Proof/Laws/Encoding.lean ====
section
/-! SUPPORT. The fields of a packed command, and a command from its fields (30_encoding R71, R72). -/

namespace Sys2Proof

theorem Command.pack_toNat (op : BitVec 8) (a b c : Word) :
    (Command.pack op a b c).toNat = op.toNat + a.toNat * 2 ^ 32 + b.toNat * 2 ^ 64 + c.toNat * 2 ^ 96 := by
  have h0 := op.isLt; have h1 := a.isLt; have h2 := b.isLt; have h3 := c.isLt
  rw [Command.pack, BitVec.toNat_ofNat, Nat.mod_eq_of_lt (by omega)]

theorem Command.op_toNat (cmd : Command) : cmd.op.toNat = cmd.toNat % 2 ^ 8 := by
  simp [Command.op]

theorem Command.rsv_toNat (cmd : Command) : cmd.rsv.toNat = cmd.toNat / 2 ^ 8 % 2 ^ 24 := by
  simp [Command.rsv, Nat.shiftRight_eq_div_pow]

theorem Command.a_toNat (cmd : Command) : cmd.a.toNat = cmd.toNat / 2 ^ 32 % 2 ^ 32 := by
  simp [Command.a, Nat.shiftRight_eq_div_pow]

theorem Command.b_toNat (cmd : Command) : cmd.b.toNat = cmd.toNat / 2 ^ 64 % 2 ^ 32 := by
  simp [Command.b, Nat.shiftRight_eq_div_pow]

theorem Command.c_toNat (cmd : Command) : cmd.c.toNat = cmd.toNat / 2 ^ 96 % 2 ^ 32 := by
  simp [Command.c, Nat.shiftRight_eq_div_pow]

theorem Command.pack_op (op : BitVec 8) (a b c : Word) : (Command.pack op a b c).op = op := by
  have h0 := op.isLt
  apply BitVec.eq_of_toNat_eq
  rw [Command.op_toNat, Command.pack_toNat]
  omega

theorem Command.pack_rsv (op : BitVec 8) (a b c : Word) : (Command.pack op a b c).rsv = 0 := by
  have h0 := op.isLt
  apply BitVec.eq_of_toNat_eq
  rw [Command.rsv_toNat, Command.pack_toNat]
  change _ = 0
  omega

theorem Command.pack_a (op : BitVec 8) (a b c : Word) : (Command.pack op a b c).a = a := by
  have h0 := op.isLt; have h1 := a.isLt
  apply BitVec.eq_of_toNat_eq
  rw [Command.a_toNat, Command.pack_toNat]
  omega

theorem Command.pack_b (op : BitVec 8) (a b c : Word) : (Command.pack op a b c).b = b := by
  have h0 := op.isLt; have h1 := a.isLt; have h2 := b.isLt
  apply BitVec.eq_of_toNat_eq
  rw [Command.b_toNat, Command.pack_toNat]
  omega

theorem Command.pack_c (op : BitVec 8) (a b c : Word) : (Command.pack op a b c).c = c := by
  have h0 := op.isLt; have h1 := a.isLt; have h2 := b.isLt; have h3 := c.isLt
  apply BitVec.eq_of_toNat_eq
  rw [Command.c_toNat, Command.pack_toNat]
  omega

/-- A word with RSV zero is its opcode and operands packed. -/
theorem Command.pack_fields {cmd : Command} (h : cmd.rsv = 0) : Command.pack cmd.op cmd.a cmd.b cmd.c = cmd := by
  have hr : cmd.rsv.toNat = 0 := by rw [h]; rfl
  have hc := cmd.isLt
  apply BitVec.eq_of_toNat_eq
  rw [Command.rsv_toNat] at hr
  rw [Command.pack_toNat, Command.op_toNat, Command.a_toNat, Command.b_toNat, Command.c_toNat]
  omega

end Sys2Proof
end

