-- ==== Sys2Proof/Laws/Operands.lean ====
section
/-! SUPPORT. When each command's checks pass, and what they answer, in plain arithmetic. -/

namespace Sys2Proof.Machine

variable (cfg : Config)

theorem checkB2w_none {bsrc wdst nbytes : Word} :
    checkB2w cfg bsrc wdst nbytes = none ↔ nbytes.toNat % 4 = 0 ∧ bsrc.toNat + nbytes.toNat ≤ cfg.bmemBytes ∧
      wdst.toNat + nbytes.toNat / 4 ≤ cfg.wmemWords := by
  unfold checkB2w regionIn
  split <;> [skip; split] <;> simp_all

theorem checkW2b_none {wsrc bdst nwords : Word} :
    checkW2b cfg wsrc bdst nwords = none ↔ wsrc.toNat + nwords.toNat ≤ cfg.wmemWords ∧
      bdst.toNat + 4 * nwords.toNat ≤ cfg.bmemBytes := by
  unfold checkW2b regionIn
  split <;> simp_all

theorem checkMove_none {srcPos dstPos len : Word} :
    checkMove cfg srcPos dstPos len = none ↔ srcPos.toNat + len.toNat ≤ cfg.wmemWords ∧
      dstPos.toNat + len.toNat ≤ cfg.wmemWords ∧
      ¬ (srcPos.toNat < dstPos.toNat ∧ dstPos.toNat < srcPos.toNat + len.toNat) := by
  unfold checkMove regionIn backwardOverlap
  split <;> [split; skip] <;> simp_all

theorem checkSalsa_none {addr : Word} : checkSalsa cfg addr = none ↔ addr.toNat + 16 ≤ cfg.wmemWords := by
  unfold checkSalsa regionIn
  split <;> simp_all

theorem checkBmix_none {xaddr yaddr r : Word} :
    checkBmix cfg xaddr yaddr r = none ↔ 1 ≤ r.toNat ∧ xaddr.toNat + 32 * r.toNat ≤ cfg.wmemWords ∧
      yaddr.toNat + 32 * r.toNat ≤ cfg.wmemWords ∧
      ¬ (xaddr.toNat < yaddr.toNat + 32 * r.toNat ∧ yaddr.toNat < xaddr.toNat + 32 * r.toNat) := by
  unfold checkBmix regionIn regionsMeet chunkWords
  split <;> [skip; split <;> [split; skip]] <;> simp_all
  omega

/-- Steps 3 to 6 of R207 as the chain of the conditions stated in plain arithmetic: the first that holds decides. -/
theorem checkInstr_eq (i : Instr) :
    checkInstr cfg i =
      if breaksLength i then some .length
      else if breaksParam i then some .param
      else if outOfRange cfg i then some .range
      else if unsupportedOverlap i then some .overlap
      else none := by
  cases i <;> try unfold checkInstr checkBmix chunkWords
  all_goals
    simp only [checkB2w, checkW2b, checkMove, checkSalsa, breaksLength, breaksParam, outOfRange,
      unsupportedOverlap, regionIn, backwardOverlap, regionsMeet, decide_eq_true_eq, Bool.and_eq_true,
      Bool.false_eq_true, if_false]
    (repeat' split) <;> first | rfl | omega

end Sys2Proof.Machine
end

