-- ==== Sys2Proof/Laws/WordCodec.lean ====
section
/-! SUPPORT. What the codec's loops do. -/

namespace Sys2Proof.Machine

/-- A number or a larger one shifted clear of it is their sum. -/
theorem or_shiftLeft_of_lt {a i : Nat} (h : a < 2 ^ i) (b : Nat) : a ||| (b <<< i) = a + 2 ^ i * b := by
  rw [Nat.or_comm, ← Nat.shiftLeft_add_eq_or_of_lt h, Nat.shiftLeft_eq]
  ring

/-- The word of four bytes as a number (20_memory R44). -/
theorem wordOfBytes_toNat (b0 b1 b2 b3 : Byte) :
    (wordOfBytes b0 b1 b2 b3).toNat = b0.toNat + 2 ^ 8 * b1.toNat + 2 ^ 16 * b2.toNat + 2 ^ 24 * b3.toNat := by
  have h0 := b0.isLt; have h1 := b1.isLt; have h2 := b2.isLt; have h3 := b3.isLt
  have hs : ∀ (b : Byte) (i : Nat), i ≤ 24 → (b.setWidth 32 <<< i).toNat = b.toNat <<< i := by
    intro b i hi
    have hb := b.isLt
    have h24 : 2 ^ i ≤ 2 ^ 24 := Nat.pow_le_pow_right (by decide) hi
    have : b.toNat * 2 ^ i < 2 ^ 32 := by nlinarith
    rw [BitVec.toNat_shiftLeft, BitVec.toNat_setWidth, Nat.mod_eq_of_lt (by omega : b.toNat < 2 ^ 32),
      Nat.shiftLeft_eq, Nat.mod_eq_of_lt this]
  unfold wordOfBytes
  rw [BitVec.toNat_or, BitVec.toNat_or, BitVec.toNat_or, hs b1 8 (by decide), hs b2 16 (by decide),
    hs b3 24 (by decide), BitVec.toNat_setWidth, Nat.mod_eq_of_lt (by omega : b0.toNat < 2 ^ 32),
    or_shiftLeft_of_lt h0,
    or_shiftLeft_of_lt (i := 16) (a := b0.toNat + 2 ^ 8 * b1.toNat) (by omega), or_shiftLeft_of_lt (by omega)]

/-- `byteOfWord` as a number (40_wordcodec R102). -/
theorem byteOfWord_toNat (v : Word) (k : Nat) : (byteOfWord v k).toNat = v.toNat / 2 ^ (8 * k) % 2 ^ 8 := by
  simp [byteOfWord, Nat.shiftRight_eq_div_pow]

/-- The word of a word's four bytes is the word (40_wordcodec R103). -/
theorem wordOfBytes_byteOfWord (v : Word) :
    wordOfBytes (byteOfWord v 0) (byteOfWord v 1) (byteOfWord v 2) (byteOfWord v 3) = v := by
  apply BitVec.eq_of_toNat_eq
  rw [wordOfBytes_toNat, byteOfWord_toNat, byteOfWord_toNat, byteOfWord_toNat, byteOfWord_toNat]
  have := v.isLt
  omega

/-- The bytes of a word of four bytes are the bytes (40_wordcodec R103). -/
theorem byteOfWord_wordOfBytes (b0 b1 b2 b3 : Byte) :
    byteOfWord (wordOfBytes b0 b1 b2 b3) 0 = b0 ∧ byteOfWord (wordOfBytes b0 b1 b2 b3) 1 = b1 ∧
    byteOfWord (wordOfBytes b0 b1 b2 b3) 2 = b2 ∧ byteOfWord (wordOfBytes b0 b1 b2 b3) 3 = b3 := by
  have h0 := b0.isLt; have h1 := b1.isLt; have h2 := b2.isLt; have h3 := b3.isLt
  refine ⟨?_, ?_, ?_, ?_⟩ <;> apply BitVec.eq_of_toNat_eq <;> rw [byteOfWord_toNat, wordOfBytes_toNat] <;> omega

/-- `b2wWords` changes `n` cells of `W` and the counter alone; each cell written is the word of its four source bytes
as they stood before the command. -/
theorem b2wWords_spec (bsrc wdst n : Nat) (s : State) :
    b2wWords bsrc wdst n s = { s with w := (b2wWords bsrc wdst n s).w, free := s.free + 4 * n } ∧
    (∀ a, (a < wdst ∨ wdst + n ≤ a) → (b2wWords bsrc wdst n s).w.read a = s.w.read a) ∧
    ∀ j < n, (b2wWords bsrc wdst n s).w.read (wdst + j) =
      some (wordOfBytes ((s.tick (4 * j)).peekB (bsrc + 4 * j)) ((s.tick (4 * j + 1)).peekB (bsrc + 4 * j + 1))
        ((s.tick (4 * j + 2)).peekB (bsrc + 4 * j + 2)) ((s.tick (4 * j + 3)).peekB (bsrc + 4 * j + 3))) := by
  have h := forUp_writeW (c := 4) (dst := wdst)
    (val := fun j s => wordOfBytes (s.peekB (bsrc + 4 * j)) ((s.tick 1).peekB (bsrc + 4 * j + 1))
      ((s.tick 2).peekB (bsrc + 4 * j + 2)) ((s.tick 3).peekB (bsrc + 4 * j + 3)))
    (body := b2wCell bsrc wdst) (fun _ _ => rfl)
  refine ⟨(h n s).1, (h n s).2.1, fun j hj => ?_⟩
  refine ((h n s).2.2 j hj).trans ?_
  have hf := (h j s).1
  simp only [State.peekB, State.tick_bm, State.tick_free]
  rw [hf]
  simp only [Nat.add_assoc]

/-- Storing a word's bytes changes four cells of `BM` and nothing else. -/
theorem storeWordBytes_spec (b : Nat) (v : Word) (s : State) :
    storeWordBytes b v s = { s with bm := (storeWordBytes b v s).bm } ∧
    (∀ a, (a < b ∨ b + 4 ≤ a) → (storeWordBytes b v s).bm.read a = s.bm.read a) ∧
    ∀ k < 4, (storeWordBytes b v s).bm.read (b + k) = some (byteOfWord v k) := by
  refine ⟨rfl, fun a ha => ?_, fun k hk => ?_⟩
  · simp only [storeWordBytes, State.writeB_bm]
    rw [Memory.read_write_ne (by omega), Memory.read_write_ne (by omega), Memory.read_write_ne (by omega),
      Memory.read_write_ne (by omega)]
  · simp only [storeWordBytes, State.writeB_bm, Memory.read_write]
    rcases (by omega : k = 0 ∨ k = 1 ∨ k = 2 ∨ k = 3) with rfl | rfl | rfl | rfl <;> simp

/-- `w2bWords` changes `4n` cells of `BM` and the counter alone; the four cells of turn `j` are the bytes of its source
word as it stood before the command. -/
theorem w2bWords_spec (wsrc bdst n : Nat) (s : State) :
    w2bWords wsrc bdst n s = { s with bm := (w2bWords wsrc bdst n s).bm, free := s.free + n } ∧
    (∀ a, (a < bdst ∨ bdst + 4 * n ≤ a) → (w2bWords wsrc bdst n s).bm.read a = s.bm.read a) ∧
    ∀ j < n, ∀ k < 4, (w2bWords wsrc bdst n s).bm.read (bdst + 4 * j + k) =
      some (byteOfWord ((s.tick j).peekW (wsrc + j)) k) := by
  induction n with
  | zero => exact ⟨rfl, fun _ _ => rfl, fun _ h => absurd h (Nat.not_lt_zero _)⟩
  | succ n ih =>
    obtain ⟨hf, ho, hi⟩ := ih
    have hs : w2bWords wsrc bdst (n + 1) s =
        storeWordBytes (bdst + 4 * n) ((w2bWords wsrc bdst n s).peekW (wsrc + n)) ((w2bWords wsrc bdst n s).tick 1) :=
      rfl
    obtain ⟨sf, so, si⟩ := storeWordBytes_spec (bdst + 4 * n) ((w2bWords wsrc bdst n s).peekW (wsrc + n))
      ((w2bWords wsrc bdst n s).tick 1)
    have hp : (w2bWords wsrc bdst n s).peekW (wsrc + n) = (s.tick n).peekW (wsrc + n) := by
      rw [hf]; rfl
    rw [hs]
    refine ⟨?_, fun a ha => ?_, fun j hj k hk => ?_⟩
    · rw [sf]
      have hc := hf
      rw [State.mk.injEq] at hc
      rw [State.mk.injEq]
      obtain ⟨h1, h2, -, h4, h5, h6, h7, h8, h9, h10⟩ := hc
      exact ⟨h1, h2, rfl, h4, h5, h6, h7, h8, h9, congrArg (· + 1) h10⟩
    · rw [so a (by omega), State.tick_bm, ho a (by omega)]
    · by_cases h : j = n
      · subst h
        rw [si k hk, hp]
      · rw [so _ (by omega), State.tick_bm, hi j (by omega) k hk]

end Sys2Proof.Machine
end

