-- ==== Sys2Proof/Laws/Dispatch.lean ====
section
/-! SUPPORT. What `exec` and `step` can do, said once: every command is the guard of R207 around its body, and what a
body can change. -/

namespace Sys2Proof.Machine

/-- What a command does to the state once its checks have passed. -/
def bodyOf : Instr → State → State
  | .b2w bsrc wdst nbytes => b2wWords bsrc.toNat wdst.toNat (nbytes.toNat / 4)
  | .w2b wsrc bdst nwords => w2bWords wsrc.toNat bdst.toNat nwords.toNat
  | .copy srcPos dstPos len => copyWords srcPos.toNat dstPos.toNat len.toNat
  | .xor srcPos dstPos len => xorWords srcPos.toNat dstPos.toNat len.toNat
  | .salsa addr => salsaAt addr.toNat
  | .bmix xaddr yaddr r => blockMix xaddr.toNat yaddr.toNat r.toNat

/-! The bodies by name, so that no proof unfolds `bodyOf` by computation. -/

theorem bodyOf_b2w (bsrc wdst nbytes : Word) :
    bodyOf (.b2w bsrc wdst nbytes) = b2wWords bsrc.toNat wdst.toNat (nbytes.toNat / 4) := rfl

theorem bodyOf_w2b (wsrc bdst nwords : Word) :
    bodyOf (.w2b wsrc bdst nwords) = w2bWords wsrc.toNat bdst.toNat nwords.toNat := rfl

theorem bodyOf_copy (srcPos dstPos len : Word) :
    bodyOf (.copy srcPos dstPos len) = copyWords srcPos.toNat dstPos.toNat len.toNat := rfl

theorem bodyOf_xor (srcPos dstPos len : Word) :
    bodyOf (.xor srcPos dstPos len) = xorWords srcPos.toNat dstPos.toNat len.toNat := rfl

theorem bodyOf_salsa (addr : Word) : bodyOf (.salsa addr) = salsaAt addr.toNat := rfl

theorem bodyOf_bmix (xaddr yaddr r : Word) :
    bodyOf (.bmix xaddr yaddr r) = blockMix xaddr.toNat yaddr.toNat r.toNat := rfl

theorem exec_eq (i : Instr) (s : State) : exec i s = runCommand i (checkInstr s.cfg i) (bodyOf i) s := by
  cases i <;> rfl

/-- The three ways a command ends: locked, faulted, executed (60_exceptions R207). -/
theorem exec_cases (i : Instr) (s : State) :
    (s.err ≠ 0 ∧ exec i s = .next (s.respond lockedCode)) ∨
    (s.err = 0 ∧ (∃ f, checkInstr s.cfg i = some f ∧ exec i s = .next (s.raiseFault f (encode i)))) ∨
    (s.err = 0 ∧ checkInstr s.cfg i = none ∧ exec i s = .next ((bodyOf i s).respond okCode)) := by
  rw [exec_eq]
  exact runCommand_cases _ _ _ _

theorem exec_locked {i : Instr} {s : State} (h : s.err ≠ 0) : exec i s = .next (s.respond lockedCode) := by
  rw [exec_eq, runCommand_locked h]

/-- A fault's state is read field by field through `State.raiseFault_reply` and its like: a `rfl` between two faults of
different commands makes the kernel compare their encoded words. -/
theorem exec_fault {i : Instr} {s : State} {f : FaultCode} (h : s.err = 0) (hc : checkInstr s.cfg i = some f) :
    exec i s = .next (s.raiseFault f (encode i)) := by
  rw [exec_eq, hc, runCommand_fault h]

theorem exec_ok {i : Instr} {s : State} (h : s.err = 0) (hc : checkInstr s.cfg i = none) :
    exec i s = .next ((bodyOf i s).respond okCode) := by
  rw [exec_eq, hc, runCommand_ok h]

/-! ### What a body keeps -/

/-- Both memories are canonical and list only cells that exist. -/
structure State.MemOk (s : State) : Prop where
  wWf : Memory.wf s.w = true
  wWithin : Memory.within s.cfg.wmemWords s.w = true
  bmWf : Memory.wf s.bm = true
  bmWithin : Memory.within s.cfg.bmemBytes s.bm = true

/-- The form depends on the sizes and the memories alone. -/
theorem State.MemOk.congr {s u : State} (h : s.MemOk) (hc : u.cfg = s.cfg) (hw : u.w = s.w) (hb : u.bm = s.bm) :
    u.MemOk :=
  ⟨by rw [hw]; exact h.wWf, by rw [hc, hw]; exact h.wWithin, by rw [hb]; exact h.bmWf,
    by rw [hc, hb]; exact h.bmWithin⟩

theorem State.MemOk.writeW {s : State} (h : s.MemOk) {a : Nat} (ha : a < s.cfg.wmemWords) (v : Word) :
    (s.writeW a v).MemOk :=
  ⟨Memory.wf_write _ _ _ h.wWf, Memory.within_write ha _ _ h.wWithin, h.bmWf, h.bmWithin⟩

theorem State.MemOk.writeB {s : State} (h : s.MemOk) {a : Nat} (ha : a < s.cfg.bmemBytes) (v : Byte) :
    (s.writeB a v).MemOk :=
  ⟨h.wWf, h.wWithin, Memory.wf_write _ _ _ h.bmWf, Memory.within_write ha _ _ h.bmWithin⟩

theorem State.MemOk.writeWords {s : State} (vs : List Word) {a : Nat} (h : s.MemOk)
    (ha : a + vs.length ≤ s.cfg.wmemWords) : (s.writeWords a vs).MemOk := by
  induction vs generalizing a s with
  | nil => exact h
  | cons v vs ih =>
    simp only [List.length_cons] at ha
    exact ih (h.writeW (by omega) v) (by simpa using (by omega : a + 1 + vs.length ≤ s.cfg.wmemWords))

theorem State.MemOk.writeBlock {s : State} (v : Block) {a : Nat} (h : s.MemOk) (ha : a + 16 ≤ s.cfg.wmemWords) :
    (s.writeBlock a v).MemOk :=
  h.writeWords v.toList (by simpa using ha)

/-- What every body keeps: the sizes, and memories that are canonical and inside them. -/
structure Kept (cfg : Config) (s : State) : Prop where
  sizes : s.cfg = cfg
  mem : s.MemOk

theorem Kept.writeW {cfg : Config} {s : State} (h : Kept cfg s) (n : Nat) {a : Nat} (ha : a < cfg.wmemWords)
    (v : Word) : Kept cfg ((s.tick n).writeW a v) :=
  ⟨h.sizes, (h.mem.congr (u := s.tick n) rfl rfl rfl).writeW (by rw [State.tick_cfg, h.sizes]; exact ha) v⟩

theorem Kept.writeBlock {cfg : Config} {s : State} (h : Kept cfg s) {a : Nat} (ha : a + 16 ≤ cfg.wmemWords)
    (v : Block) : Kept cfg (s.writeBlock a v) :=
  ⟨by rw [(State.writeBlock_spec v a s).1]; exact h.sizes, h.mem.writeBlock v (by rw [h.sizes]; exact ha)⟩

theorem Kept.hidden {cfg : Config} {s : State} (h : Kept cfg s) (x t : Block) (n : Nat) :
    Kept cfg { s.tick n with x := x, t := t } :=
  ⟨h.sizes, h.mem.congr rfl rfl rfl⟩

theorem Kept.storeWordBytes {cfg : Config} {s : State} (h : Kept cfg s) {b : Nat} (hb : b + 4 ≤ cfg.bmemBytes)
    (v : Word) : Kept cfg (storeWordBytes b v s) := by
  have hs := h.sizes
  refine ⟨hs, ?_⟩
  unfold Sys2Proof.Machine.storeWordBytes
  have h0 := h.mem.writeB (a := b) (by rw [hs]; omega) (byteOfWord v 0)
  have h1 := h0.writeB (a := b + 1) (by rw [State.writeB_cfg, hs]; omega) (byteOfWord v 1)
  have h2 := h1.writeB (a := b + 2) (by rw [State.writeB_cfg, State.writeB_cfg, hs]; omega) (byteOfWord v 2)
  exact h2.writeB (a := b + 3) (by rw [State.writeB_cfg, State.writeB_cfg, State.writeB_cfg, hs]; omega) _

theorem copyWords_kept {cfg : Config} {src dst n : Nat} {s : State} (hd : dst + n ≤ cfg.wmemWords) (h : Kept cfg s) :
    Kept cfg (copyWords src dst n s) :=
  forUp_keeps (P := Kept cfg) (body := fun i => copyCell (src + i) (dst + i))
    (fun i hi _ hs => hs.writeW 1 (by omega) _) h

theorem mixSlot_kept {cfg : Config} {xaddr yaddr i : Nat} {s : State} (hy : yaddr + 16 * i + 16 ≤ cfg.wmemWords)
    (h : Kept cfg s) : Kept cfg (mixSlot xaddr yaddr i s) := by
  unfold mixSlot
  exact (h.hidden _ _ 16).writeBlock hy _

/-- A command whose checks pass keeps the sizes and the memories' form. -/
theorem bodyOf_kept {i : Instr} {s : State} (hc : checkInstr s.cfg i = none) (h : s.MemOk) :
    Kept s.cfg (bodyOf i s) := by
  have hk : Kept s.cfg s := ⟨rfl, h⟩
  cases i with
  | b2w bsrc wdst nbytes =>
    obtain ⟨-, -, h3⟩ := (checkB2w_none _).mp hc
    exact forUp_keeps (P := Kept s.cfg) (body := b2wCell bsrc.toNat wdst.toNat)
      (fun i hi _ hs => hs.writeW 4 (by omega) _) hk
  | w2b wsrc bdst nwords =>
    obtain ⟨-, h3⟩ := (checkW2b_none _).mp hc
    exact forUp_keeps (P := Kept s.cfg) (body := w2bCell wsrc.toNat bdst.toNat)
      (fun i hi u hs => (hs.hidden u.x u.t 1).storeWordBytes (by omega) _) hk
  | copy srcPos dstPos len =>
    obtain ⟨-, h3, -⟩ := (checkMove_none _).mp hc
    exact copyWords_kept h3 hk
  | xor srcPos dstPos len =>
    obtain ⟨-, h3, -⟩ := (checkMove_none _).mp hc
    exact forUp_keeps (P := Kept s.cfg) (body := fun i => xorCell (srcPos.toNat + i) (dstPos.toNat + i))
      (fun i hi _ hs => hs.writeW 2 (by omega) _) hk
  | salsa addr =>
    have h3 := (checkSalsa_none _).mp hc
    change Kept s.cfg (salsaAt addr.toNat s)
    unfold salsaAt
    exact (hk.hidden _ s.t 16).writeBlock h3 _
  | bmix xaddr yaddr r =>
    obtain ⟨hr, hx, hy, -⟩ := (checkBmix_none _).mp hc
    have hl : Kept s.cfg (loadLast xaddr.toNat r.toNat s) := hk.hidden s.x _ 16
    have hm : Kept s.cfg (mixPhase xaddr.toNat yaddr.toNat r.toNat s) :=
      forUp_keeps (P := Kept s.cfg) (body := mixSlot xaddr.toNat yaddr.toNat)
        (fun i hi u hs => mixSlot_kept (by omega) hs) hl
    change Kept s.cfg (deinterleave xaddr.toNat yaddr.toNat r.toNat (mixPhase xaddr.toNat yaddr.toNat r.toNat s))
    unfold deinterleave
    exact forUp_keeps (P := Kept s.cfg) (fun i hi u hs => copyWords_kept (by omega) hs)
      (forUp_keeps (P := Kept s.cfg) (fun i hi u hs => copyWords_kept (by omega) hs) hm)

/-- What no body touches, on any operands: the sizes, `ERR`, `ERRCMD`, the host's moves and the last answer. -/
structure SameControl (s u : State) : Prop where
  cfg : u.cfg = s.cfg
  err : u.err = s.err
  errcmd : u.errcmd = s.errcmd
  host : u.host = s.host
  reply : u.reply = s.reply

theorem SameControl.refl (s : State) : SameControl s s := ⟨rfl, rfl, rfl, rfl, rfl⟩

theorem SameControl.trans {s u v : State} (h : SameControl s u) (h' : SameControl u v) : SameControl s v :=
  ⟨h'.cfg.trans h.cfg, h'.err.trans h.err, h'.errcmd.trans h.errcmd, h'.host.trans h.host, h'.reply.trans h.reply⟩

/-- Memories, hidden registers and the counter are no control state. -/
theorem SameControl.of_data (s : State) (w : Memory Word) (bm : Memory Byte) (x t : Block) (n : Nat) :
    SameControl s { s with w := w, bm := bm, x := x, t := t, free := n } := ⟨rfl, rfl, rfl, rfl, rfl⟩

theorem SameControl.hidden (s : State) (x t : Block) (n : Nat) :
    SameControl s { s.tick n with x := x, t := t } := ⟨rfl, rfl, rfl, rfl, rfl⟩

theorem SameControl.writeBlock {s u : State} (h : SameControl s u) (a : Nat) (v : Block) :
    SameControl s (u.writeBlock a v) := by
  rw [(State.writeBlock_spec v a u).1]
  exact h.trans ⟨rfl, rfl, rfl, rfl, rfl⟩

theorem bodyOf_sameControl (i : Instr) (s : State) : SameControl s (bodyOf i s) := by
  have hcopy : ∀ (src dst n : Nat) (u : State), SameControl u (copyWords src dst n u) := fun src dst n u => by
    rw [(copyWords_frame src dst n u).1]; exact .of_data _ _ _ _ _ _
  have hloop : ∀ (n : Nat) (body : Nat → State → State), (∀ i u, SameControl u (body i u)) →
      ∀ u, SameControl u (forUp n body u) := fun n body hb u =>
    forUp_keeps (P := SameControl u) (fun i _ v hv => hv.trans (hb i v)) (.refl u)
  cases i with
  | b2w bsrc wdst nbytes =>
    change SameControl s (b2wWords _ _ _ s)
    rw [(b2wWords_spec _ _ _ s).1]; exact .of_data _ _ _ _ _ _
  | w2b wsrc bdst nwords =>
    change SameControl s (w2bWords _ _ _ s)
    rw [(w2bWords_spec _ _ _ s).1]; exact .of_data _ _ _ _ _ _
  | copy srcPos dstPos len => exact hcopy _ _ _ s
  | xor srcPos dstPos len =>
    change SameControl s (xorWords _ _ _ s)
    rw [(xorWords_frame _ _ _ s).1]; exact .of_data _ _ _ _ _ _
  | salsa addr =>
    change SameControl s (salsaAt _ s)
    rw [(salsaAt_spec _ s).1]; exact .of_data _ _ _ _ _ _
  | bmix xaddr yaddr r =>
    have hslot : ∀ i u, SameControl u (mixSlot xaddr.toNat yaddr.toNat i u) := fun i u => by
      unfold mixSlot
      exact (SameControl.hidden u _ _ 16).writeBlock _ _
    have hl : SameControl s (loadLast xaddr.toNat r.toNat s) := .hidden s s.x _ 16
    change SameControl s (deinterleave _ _ _ (mixPhase _ _ _ s))
    unfold deinterleave mixPhase
    exact (hl.trans (hloop _ _ hslot _)).trans
      ((hloop _ _ (fun i u => hcopy _ _ _ u) _).trans (hloop _ _ (fun i u => hcopy _ _ _ u) _))

end Sys2Proof.Machine
end

