-- ==== Sys2Proof/Laws/PerInstr.lean ====
section
/-! SUPPORT. Statements for all instructions, one lemma per constructor: an instruction's word carries its row's opcode
in the low 32 bits and RSV zero (30_encoding R73, R77). -/

namespace Sys2Proof.Laws

/-- The opcode of 30_encoding R73. -/
def opcodeOf : Instr → Nat
  | .b2w _ _ _ => 1
  | .w2b _ _ _ => 2
  | .copy _ _ _ => 3
  | .xor _ _ _ => 4
  | .salsa _ => 5
  | .bmix _ _ _ => 6

/-- The low 32 bits of the instruction's word are its row's fixed bits: OP the opcode, RSV zero. -/
def LowWordIsOpcode.Statement (i : Instr) : Prop :=
  (encode i).toNat % 2 ^ 32 = opcodeOf i

theorem pack_low (op : BitVec 8) (a b c : Word) : (Command.pack op a b c).toNat % 2 ^ 32 = op.toNat := by
  have := op.isLt
  rw [Command.pack_toNat]
  omega

theorem LowWordIsOpcode.b2w (a b c : Word) : LowWordIsOpcode.Statement (.b2w a b c) := pack_low _ _ _ _
theorem LowWordIsOpcode.w2b (a b c : Word) : LowWordIsOpcode.Statement (.w2b a b c) := pack_low _ _ _ _
theorem LowWordIsOpcode.copy (a b c : Word) : LowWordIsOpcode.Statement (.copy a b c) := pack_low _ _ _ _
theorem LowWordIsOpcode.xor (a b c : Word) : LowWordIsOpcode.Statement (.xor a b c) := pack_low _ _ _ _
theorem LowWordIsOpcode.salsa (a : Word) : LowWordIsOpcode.Statement (.salsa a) := pack_low _ _ _ _
theorem LowWordIsOpcode.bmix (a b c : Word) : LowWordIsOpcode.Statement (.bmix a b c) := pack_low _ _ _ _

end Sys2Proof.Laws
end

