-- ==== Sys2Proof/Tests/Slice0.lean ====
section
/-! SUPPORT. The model's own tests. Every expected value stands in spec/95_test_vectors.md (the vector is named at each
test) or follows from the rule named there by hand. -/

namespace Sys2Proof.Machine

/-! ### Helpers -/

/-- Cells from `a` on, in order. -/
def cellsFrom {α : Type} (a : Nat) : List α → Memory α
  | [] => []
  | v :: vs => (a, v) :: cellsFrom (a + 1) vs

/-- The test configuration's block with the given memories. -/
def stateWith (w : Memory Word) (bm : Memory Byte) : State :=
  { State.reset with w := w, bm := bm }

/-- The next state, if there is one. -/
def nextOf : Host.Outcome State Fault Refusal → Option State
  | .next s => some s
  | .fault _ => none
  | .refused _ => none

/-- `n` words of `W` from `a` after an outcome. -/
def wordsAfter (o : Host.Outcome State Fault Refusal) (a n : Nat) : Option (List (Option Word)) :=
  (nextOf o).map fun s => (List.range n).map fun k => s.w.read (a + k)

/-- Response, `ERR` and `ERRCMD` after an outcome. -/
def statusAfter (o : Host.Outcome State Fault Refusal) : Option (Reply × BitVec 32 × Command) :=
  (nextOf o).map fun s => (s.reply, s.err, s.errcmd)

/-- What `Issue` of a word answers on a block in the test configuration whose memories nothing has written. -/
def issueOnReset (cmd : Command) : Option (Reply × BitVec 32 × Command) :=
  statusAfter (step { State.reset with host := [.issue cmd] })

/-! ### Decoding: words written out from the encoding (30_encoding R71, R72, R73) -/

theorem test_decode_b2w : decode (.ofWords 0x00000001 0x00000064 0x00000014 0x00000010) = .ok (.b2w 100 20 16) := by
  decide -- K6

theorem test_decode_w2b : decode (.ofWords 0x00000002 0x00000008 0x00000020 0x00000002) = .ok (.w2b 8 32 2) := by
  decide -- K2

theorem test_decode_copy : decode 0x00000010000000400000001000000003 = .ok (.copy 16 64 16) := by
  decide -- the example of R72

theorem test_decode_xor : decode (.ofWords 0x00000004 0x00000000 0x00000014 0x00000004) = .ok (.xor 0 20 4) := by
  decide -- O2

theorem test_decode_salsa : decode (.ofWords 0x00000005 0x000000f0 0x00000000 0x00000000) = .ok (.salsa 240) := by
  decide -- S7

theorem test_decode_bmix : decode (.ofWords 0x00000006 0x00000008 0x00000064 0x00000002) = .ok (.bmix 8 100 2) := by
  decide -- M2

theorem test_encode_copy : encode (.copy 16 64 16) = 0x00000010000000400000001000000003 := by
  decide -- the example of R72

theorem test_illegal_zero : decode (.ofWords 0 0 0 0) = .error .reservedOpcode := by decide -- I1
theorem test_illegal_seven : decode (.ofWords 7 0 0 0) = .error .reservedOpcode := by decide -- I2
theorem test_illegal_last : decode (.ofWords 0xff 0 0 0) = .error .reservedOpcode := by decide -- I4
theorem test_illegal_rsv : decode (.ofWords 0x103 0 0 4) = .error .reservedBits := by decide -- I5
theorem test_illegal_rsv_top : decode (.ofWords 0x80000005 0 0 0) = .error .reservedBits := by decide -- I7
theorem test_illegal_salsa_b : decode (.ofWords 5 0 1 0) = .error .unusedOperand := by decide -- S10
theorem test_illegal_salsa_c : decode (.ofWords 5 0 0 1) = .error .unusedOperand := by decide -- S11

/-! ### Well-formedness, an ill-formed term for each check (R76, R77, R78, R81) -/

theorem test_legal : Command.legal (.ofWords 5 240 0 0) := by decide
theorem test_not_legal_opcode_low : ¬ Command.legal (.ofWords 0 1 2 3) := by decide
theorem test_not_legal_opcode_high : ¬ Command.legal (.ofWords 7 1 2 3) := by decide
theorem test_not_legal_rsv : ¬ Command.legal (.ofWords 0x501 0 0 0) := by decide
theorem test_not_legal_unused : ¬ Command.legal (.ofWords 5 0 1 0) := by decide
theorem test_asm : assemble ⟨.copy, [16, 64, 16]⟩ = some (.copy 16 64 16) := by decide
theorem test_asm_salsa : assemble ⟨.salsa, [240]⟩ = some (.salsa 240) := by decide
theorem test_asm_too_large : assemble ⟨.b2w, [2 ^ 32, 0, 0]⟩ = none := by decide
theorem test_asm_too_many : assemble ⟨.salsa, [240, 0, 0]⟩ = none := by decide

/-! ### WordCodec -/

/-- `BM[0..15]` of the start state of K1 to K6. -/
def codecBytes : Memory Byte :=
  cellsFrom 0 [0x01, 0x02, 0x03, 0x04, 0x00, 0x00, 0x00, 0x80, 0xff, 0xff, 0xff, 0xff, 0x78, 0x56, 0x34, 0x12]

theorem test_b2w : wordsAfter (exec (.b2w 0 0 16) (stateWith [] codecBytes)) 0 5 =
    some [some 0x04030201, some 0x80000000, some 0xffffffff, some 0x12345678, none] := by decide -- K1

theorem test_b2w_unaligned : wordsAfter (exec (.b2w 1 5 4) (stateWith [] codecBytes)) 5 1 =
    some [some 0x00040302] := by decide -- K4

theorem test_w2b : (nextOf (exec (.w2b 8 32 2) (stateWith [(8, 0x80000001), (9, 0xdeadbeef)] []))).map (·.bm) =
    some (cellsFrom 32 [0x01, 0x00, 0x00, 0x80, 0xef, 0xbe, 0xad, 0xde]) := by decide -- K2

/-! ### BlockOps -/

theorem test_xor : wordsAfter (exec (.xor 0 20 4) (stateWith
      (cellsFrom 0 [0x11111111, 0x22222222, 0x33333333, 0x44444444] ++
       cellsFrom 20 [0xa0a0a0a4, 0xa0a0a0a5, 0xa0a0a0a6, 0xa0a0a0a7]) [])) 20 4 =
    some [some 0xb1b1b1b5, some 0x82828287, some 0x93939395, some 0xe4e4e4e3] := by decide -- O2

theorem test_copy_forward_overlap : wordsAfter (exec (.copy 2 0 6) (stateWith
      (cellsFrom 0 [0x11111111, 0x22222222, 0x33333333, 0x44444444, 0x55555555, 0x66666666, 0x77777777, 0x88888888])
      [])) 0 8 =
    some [some 0x33333333, some 0x44444444, some 0x55555555, some 0x66666666, some 0x77777777, some 0x88888888,
      some 0x77777777, some 0x88888888] := by decide -- O3

theorem test_xor_forward_overlap : wordsAfter (exec (.xor 4 2 4) (stateWith
      (cellsFrom 0 [0x00000000, 0x00000000, 0x00000000, 0x66666666, 0x77777777, 0x88888888, 0x77777777, 0x88888888])
      [])) 0 8 =
    some [some 0x00000000, some 0x00000000, some 0x77777777, some 0xeeeeeeee, some 0x00000000, some 0x00000000,
      some 0x77777777, some 0x88888888] := by decide -- O5

/-! ### Salsa20/8 -/

theorem test_first_updates : (applyUpdates (columnRound.take 4)
      #v[0, 1, 2, 3, 4, 5, 6, 7, 8, 9, 10, 11, 12, 13, 14, 15]) =
    #v[0x20560736, 1, 2, 3, 0x00000604, 5, 6, 7, 0x000c0808, 9, 10, 11, 0x81c1800d, 13, 14, 15] := by
  decide -- S5, the four updates worked by hand

theorem test_double_round : doubleRound #v[0, 1, 2, 3, 4, 5, 6, 7, 8, 9, 10, 11, 12, 13, 14, 15] =
    #v[0x5ff84399, 0xe8e8dc91, 0x7dd7be10, 0x135421db, 0x96c9d24f, 0xbdbf75d0, 0x1a88d53c, 0x87d3e112,
       0x8e085c1c, 0xe840980f, 0x10b5c561, 0x4a2ee5e8, 0x9f51f845, 0x1e245252, 0xc952ffa0, 0xd7f6853f] := by
  decide -- S5, DR1 row

/-- The published vector's input (G4-s). -/
def publishedBlock : Block :=
  #v[0x219a877e, 0x86c93e4f, 0xe640a97c, 0x268f7141, 0x5b55eeba, 0xb5c1618c, 0x1146f80d, 0x1d3bcd6d,
     0x19f324ee, 0x853d9bdf, 0x4b1e1214, 0x32aac55a, 0x291d0276, 0x2948c709, 0x8dc6ebed, 0x5ec2b8b8]

theorem test_salsa : wordsAfter (exec (.salsa 16) (stateWith (cellsFrom 16 publishedBlock.toList) [])) 15 4 =
    some [none, some 0x9c851fa4, some 0x99cc0866, some 0xcbca813b] := by decide -- P1 command 2

/-! ### BlockMix -/

/-- The published vector's input in word form (M1). -/
def publishedChunk : List Word :=
  [0x650bcef7, 0xa4722d3d, 0xabf58c10, 0xddff12e9, 0xdb167677, 0x0ea727bb, 0xaef30482, 0xad6f0f2d,
   0x488ff689, 0x7be8d111, 0x40d73bcc, 0x29fd9f0a, 0x84014f09, 0xf3749563, 0x31a1e59a, 0xd7bc1752,
   0x44914989, 0x22bb1372, 0x4db5256c, 0xfb7063a8, 0x804398cd, 0xbb664637, 0xbfb5fc8f, 0xb054c240,
   0x517cd267, 0xfed54ace, 0x0bc929d8, 0x1b575a50, 0xad1c4d7f, 0xda3c526a, 0xbc670e77, 0x897eafea]

theorem test_bmix : wordsAfter (exec (.bmix 0 32 1) (stateWith (cellsFrom 0 publishedChunk) [])) 0 2 =
    some [some 0x9c851fa4, some 0x99cc0866] ∧
    wordsAfter (exec (.bmix 0 32 1) (stateWith (cellsFrom 0 publishedChunk) [])) 48 2 =
    some [some 0x75c9ed20, some 0xa8813832] := by decide -- M1

/-- The input of M2: `W[8 + i] = i * 0x01000193`. -/
def rampChunk : List Word :=
  (List.range 64).map fun i => BitVec.ofNat 32 (i * 0x01000193)

/-- M2: the first words of X blocks 1 and 2 are those of slots 2 and 1. -/
theorem test_bmix_deinterleave :
    (nextOf (exec (.bmix 8 100 2) (stateWith (cellsFrom 8 rampChunk) []))).map
      (fun s => (s.w.read 24, s.w.read 40, s.w.read 56, s.w.read 116, s.w.read 72)) =
    some (some 0x34daefa7, some 0x59e45c03, some 0xdf799b65, some 0x59e45c03, none) := by decide +kernel

/-! ### Witnesses: for every statement with hypotheses, a state and operands that meet them, at the edge of each clause's
range. `Obligations.<Name>` is witnessed by the theorems whose names begin `witness_<Name>`. -/

/-- The block in the test configuration with these moves pending. -/
def pending (moves : List HostMove) : State := { State.reset with host := moves }

/-- A locked block: `BMIX 0, 0, 0` has faulted on it (ERR_PARAM). -/
def lockedBlock : State := { State.reset with err := 3, errcmd := encode (.bmix 0 0 0) }

/-- A block of other sizes, all of its words and bytes written. -/
def filledBlock : State :=
  { State.reset with
    cfg := ⟨80, 40⟩
    w := (List.range 80).map fun i => (i, BitVec.ofNat 32 (i * 0x01000193))
    bm := (List.range 40).map fun i => (i, BitVec.ofNat 8 (3 * i)) }

/-! Decoding: both ends of every clause of the procedure (R83). -/

theorem witness_EncodeOfDecode :
    decode 0xffffffff00000000ffffffff00000006 = .ok (.bmix 0xffffffff 0 0xffffffff) := by decide

theorem witness_DecodeProcedure_opcodes :
    decode 0x0 = .error .reservedOpcode ∧ decode 0x1 = .ok (.b2w 0 0 0) ∧ decode 0x6 = .ok (.bmix 0 0 0) ∧
    decode 0x7 = .error .reservedOpcode ∧ decode 0xffffffff = .error .reservedOpcode := by decide

theorem witness_DecodeProcedure_fields :
    decode 0x00000000000000000000000000000101 = .error .reservedBits ∧
    decode 0x00000000000000010000000080000005 = .error .reservedBits ∧
    decode 0x00000000000000010000000000000005 = .error .unusedOperand ∧
    decode 0x80000000000000000000000000000005 = .error .unusedOperand ∧
    decode 0x0000000000000000ffffffff00000005 = .ok (.salsa 0xffffffff) := by decide

theorem witness_WordDecodesExactlyWhenLegal :
    Command.legal 0xffffffffffffffffffffffff00000006 ∧ Command.legal 0x0000000000000000ffffffff00000005 ∧
    ¬ Command.legal 0x0000000000000001ffffffff00000005 ∧ ¬ Command.legal 0xffffffffffffffffffffffff00000007 := by decide

theorem witness_OpcodeTableRowsDecode :
    (0xffffffffffffffffffffffff00000001 : Command) &&& 0x000000000000000000000000FFFFFFFF = 0x01 ∧
    (0x0000000000000000ffffffff00000005 : Command) &&& 0xFFFFFFFFFFFFFFFF00000000FFFFFFFF = 0x05 := by decide

theorem witness_AssemblerRoundTrip : AsmLine.wellFormed ⟨.bmix, [0, 2 ^ 32 - 1, 1]⟩ = true ∧
    AsmLine.wellFormed ⟨.salsa, [2 ^ 32 - 1]⟩ = true := by decide

/-! The step. -/

theorem witness_StepRunsTheIssuedCommand :
    (pending [.issue 0x05, .reset]).host = .issue 0x05 :: [.reset] ∧ decode 0x05 = .ok (.salsa 0) := by decide

theorem witness_PlacedCommandRunsNext : decode (BitVec.ofNat 128 0x00000010000000400000001000000003) =
    .ok (.copy 16 64 16) := by decide

theorem witness_IdleBlockHoldsItsState : State.reset.host = [] := by decide

theorem witness_LockedBlockAnswersLocked :
    ({ lockedBlock with host := [.issue 0x05] } : State).err ≠ 0 ∧
    ({ lockedBlock with host := [.issue 0x05] } : State).host = .issue 0x05 :: [] := by decide

theorem witness_IllegalWordsRaiseIllegal :
    (pending [.issue 0x07]).err = 0 ∧ (pending [.issue 0x07]).host = .issue 0x07 :: [] ∧ ¬ Command.legal 0x07 ∧
    ¬ Command.legal 0x00 ∧ ¬ Command.legal 0x101 ∧ ¬ Command.legal 0x80000000000000000000000000000005 := by decide

theorem witness_IssueAnswersInCheckOrder_locked :
    statusAfter (step { lockedBlock with host := [.issue 0] }) =
    some (.response 6, 3, encode (.bmix 0 0 0)) := by decide

theorem witness_IssueAnswersInCheckOrder_illegal : issueOnReset (.ofWords 7 0x12c 0x12c 6) =
    some (.response 1, 1, 0x000000060000012c0000012c00000007) := by decide

theorem witness_IssueAnswersInCheckOrder_length : issueOnReset (.ofWords 1 0x12c 0x12c 6) =
    some (.response 2, 2, 0x000000060000012c0000012c00000001) := by decide -- K17

theorem witness_IssueAnswersInCheckOrder_param : issueOnReset (.ofWords 6 0x12c 0x12c 0) =
    some (.response 3, 3, 0x000000000000012c0000012c00000006) := by decide -- M8

theorem witness_IssueAnswersInCheckOrder_range : issueOnReset (.ofWords 6 0xfa 0 1) =
    some (.response 4, 4, 0x0000000100000000000000fa00000006) := by decide -- M9

theorem witness_IssueAnswersInCheckOrder_overlap : issueOnReset (.ofWords 6 0x1f 0 1) =
    some (.response 5, 5, 0x00000001000000000000001f00000006) := by decide -- M17

theorem witness_IssueAnswersInCheckOrder_ok : issueOnReset (.ofWords 3 0 4 4) = some (.response 0, 0, 0) := by
  decide -- O12

/-! Faults. -/

theorem witness_LengthFaultExactlyWhen : State.reset.err = 0 ∧ breaksLength (.b2w 0 0 3) = true ∧
    breaksLength (.b2w 0 0 4) = false := by decide

theorem witness_ParamFaultExactlyWhen : State.reset.err = 0 ∧ breaksParam (.bmix 0 0 0) = true ∧
    breaksParam (.bmix 0 0 1) = false := by decide

/-- Each region of each command one cell too far, sums and products beyond 32 bits among them (K15, K16). -/
theorem witness_RangeFaultExactlyWhen :
    State.reset.err = 0 ∧
    outOfRange State.reset.cfg (.b2w 253 0 4) = true ∧ outOfRange State.reset.cfg (.b2w 252 255 4) = false ∧
    outOfRange State.reset.cfg (.b2w 0 256 4) = true ∧ outOfRange State.reset.cfg (.b2w 0xfffffffc 0 8) = true ∧
    outOfRange State.reset.cfg (.w2b 256 0 1) = true ∧ outOfRange State.reset.cfg (.w2b 0 253 1) = true ∧
    outOfRange State.reset.cfg (.w2b 0 0 0x40000000) = true ∧ outOfRange State.reset.cfg (.w2b 255 252 1) = false ∧
    outOfRange State.reset.cfg (.copy 250 0 7) = true ∧ outOfRange State.reset.cfg (.xor 0 250 7) = true ∧
    outOfRange State.reset.cfg (.copy 249 0 7) = false ∧ outOfRange State.reset.cfg (.salsa 241) = true ∧
    outOfRange State.reset.cfg (.salsa 240) = false ∧ outOfRange State.reset.cfg (.bmix 225 0 1) = true ∧
    outOfRange State.reset.cfg (.bmix 0 225 1) = true ∧ outOfRange State.reset.cfg (.bmix 0 224 1) = false := by decide

theorem witness_OverlapFaultExactlyWhen :
    State.reset.err = 0 ∧
    unsupportedOverlap (.copy 0 3 4) = true ∧ unsupportedOverlap (.copy 0 4 4) = false ∧
    unsupportedOverlap (.xor 0 1 4) = true ∧ unsupportedOverlap (.xor 1 1 4) = false ∧
    unsupportedOverlap (.bmix 31 0 1) = true ∧ unsupportedOverlap (.bmix 0 31 1) = true ∧
    unsupportedOverlap (.bmix 32 0 1) = false ∧ unsupportedOverlap (.bmix 0 32 1) = false := by decide

theorem witness_FaultChangesOnlyTheStatusRegisters :
    ∃ t, (pending [.issue 0xf100000005]).host = .issue 0xf100000005 :: [] ∧
      step (pending [.issue 0xf100000005]) = .next t ∧ (pending [.issue 0xf100000005]).err = 0 ∧ t.err ≠ 0 :=
  ⟨_, rfl, rfl, rfl, by decide⟩

theorem witness_FaultChangesOnlyTheStatusRegisters_locked :
    ∃ t, step { lockedBlock with host := [.issue 0x05] } = .next t ∧ lockedBlock.err ≠ 0 ∧ t.reply = .response 6 :=
  ⟨_, rfl, by decide, by decide⟩

theorem witness_ErrorStaysUntilReset :
    ∃ t, ({ lockedBlock with host := [.wrW 255 7, .reset] } : State).err ≠ 0 ∧
      ({ lockedBlock with host := [.wrW 255 7, .reset] } : State).host.head? ≠ some .reset ∧
      step { lockedBlock with host := [.wrW 255 7, .reset] } = .next t :=
  ⟨_, by decide, by decide, rfl⟩

theorem witness_ResponseOkExactlyWhenNoError :
    ∃ t, (pending [.issue 0x05]).host = .issue 0x05 :: [] ∧ step (pending [.issue 0x05]) = .next t ∧
      t.reply = .response 0 :=
  ⟨_, rfl, rfl, by decide⟩

/-! The commands: the last operands that fit; the refusals are witnessed above and by `lockedBlock`. -/

theorem witness_B2wMovesBytesIntoWords :
    filledBlock.err = 0 ∧ (4 : Word).toNat % 4 = 0 ∧ (36 : Word).toNat + (4 : Word).toNat ≤ filledBlock.cfg.bmemBytes ∧
    (79 : Word).toNat + (4 : Word).toNat / 4 ≤ filledBlock.cfg.wmemWords ∧
    filledBlock.bm.read 36 = some 108 ∧ filledBlock.bm.read 39 = some 117 := by decide

theorem witness_B2wMovesBytesIntoWords_refused :
    lockedBlock.err ≠ 0 ∧ (6 : Word).toNat % 4 ≠ 0 ∧
    filledBlock.cfg.bmemBytes < (37 : Word).toNat + (4 : Word).toNat ∧
    filledBlock.cfg.wmemWords < (80 : Word).toNat + (4 : Word).toNat / 4 := by decide

theorem witness_W2bMovesWordsIntoBytes :
    filledBlock.err = 0 ∧ (79 : Word).toNat + (1 : Word).toNat ≤ filledBlock.cfg.wmemWords ∧
    (36 : Word).toNat + 4 * (1 : Word).toNat ≤ filledBlock.cfg.bmemBytes ∧ filledBlock.w.read 79 = some 0x4f007c5d ∧
    filledBlock.cfg.wmemWords < (80 : Word).toNat + (1 : Word).toNat ∧
    filledBlock.cfg.bmemBytes < (37 : Word).toNat + 4 * (1 : Word).toNat ∧ lockedBlock.err ≠ 0 := by decide

/-- Forward overlap by all but one word, up to the last word of `W`. -/
theorem witness_CopyMovesWords :
    filledBlock.err = 0 ∧ (76 : Word).toNat + (4 : Word).toNat ≤ filledBlock.cfg.wmemWords ∧
    (75 : Word).toNat + (4 : Word).toNat ≤ filledBlock.cfg.wmemWords ∧
    ¬ ((76 : Word).toNat < (75 : Word).toNat ∧ (75 : Word).toNat < (76 : Word).toNat + (4 : Word).toNat) ∧
    (filledBlock.w.read 79).isSome := by decide

theorem witness_CopyMovesWords_refused :
    lockedBlock.err ≠ 0 ∧ filledBlock.cfg.wmemWords < (77 : Word).toNat + (4 : Word).toNat ∧
    (73 : Word).toNat + (4 : Word).toNat ≤ filledBlock.cfg.wmemWords ∧
    (76 : Word).toNat + (4 : Word).toNat ≤ filledBlock.cfg.wmemWords ∧
    (73 : Word).toNat < (76 : Word).toNat ∧ (76 : Word).toNat < (73 : Word).toNat + (4 : Word).toNat := by decide

/-- A region xored with itself, up to the last word of `W`; one word further faults, one word of overlap faults. -/
theorem witness_XorCombinesWords :
    filledBlock.err = 0 ∧ (76 : Word).toNat + (4 : Word).toNat ≤ filledBlock.cfg.wmemWords ∧
    ¬ ((76 : Word).toNat < (76 : Word).toNat ∧ (76 : Word).toNat < (76 : Word).toNat + (4 : Word).toNat) ∧
    (filledBlock.w.read 76).isSome ∧ lockedBlock.err ≠ 0 ∧
    filledBlock.cfg.wmemWords < (77 : Word).toNat + (4 : Word).toNat ∧
    (73 : Word).toNat < (76 : Word).toNat ∧ (76 : Word).toNat < (73 : Word).toNat + (4 : Word).toNat := by decide

/-- The sixteen words of `filledBlock` from 64 on. -/
def lastBlock : Block := Vector.ofFn fun k : Fin 16 => BitVec.ofNat 32 ((64 + k.val) * 0x01000193)

theorem witness_SalsaMixesItsBlock :
    filledBlock.err = 0 ∧ (64 : Word).toNat + 16 ≤ filledBlock.cfg.wmemWords ∧
    filledBlock.holdsBlock (64 : Word).toNat lastBlock ∧ lockedBlock.err ≠ 0 ∧
    filledBlock.cfg.wmemWords < (65 : Word).toNat + 16 := by decide

theorem witness_BmixMixesItsChunk :
    filledBlock.err = 0 ∧ 1 ≤ (1 : Word).toNat ∧ (48 : Word).toNat + 32 * (1 : Word).toNat ≤ filledBlock.cfg.wmemWords ∧
    (16 : Word).toNat + 32 * (1 : Word).toNat ≤ filledBlock.cfg.wmemWords ∧
    ¬ ((48 : Word).toNat < (16 : Word).toNat + 32 * (1 : Word).toNat ∧
      (16 : Word).toNat < (48 : Word).toNat + 32 * (1 : Word).toNat) ∧
    ∀ i < 2 * (1 : Word).toNat, filledBlock.holdsBlock ((48 : Word).toNat + 16 * i)
      (Vector.ofFn fun k : Fin 16 => BitVec.ofNat 32 ((48 + 16 * i + k.val) * 0x01000193)) := by decide

theorem witness_BmixRefusals :
    lockedBlock.err ≠ 0 ∧ filledBlock.err = 0 ∧ (0 : Word).toNat = 0 ∧ 1 ≤ (1 : Word).toNat ∧
    filledBlock.cfg.wmemWords < (49 : Word).toNat + 32 * (1 : Word).toNat ∧
    (47 : Word).toNat + 32 * (1 : Word).toNat ≤ filledBlock.cfg.wmemWords ∧
    (16 : Word).toNat + 32 * (1 : Word).toNat ≤ filledBlock.cfg.wmemWords ∧
    (47 : Word).toNat < (16 : Word).toNat + 32 * (1 : Word).toNat ∧
    (16 : Word).toNat < (47 : Word).toNat + 32 * (1 : Word).toNat := by decide

theorem witness_UpdateChangesOneWord : (⟨15, 14, 13, 18⟩ : Update) ∈ columnRound ++ rowRound ∧ (14 : Fin 16) ≠ 15 := by
  decide

/-! Two runs. -/

theorem witness_SalsaDependsOnItsBlockAlone :
    filledBlock.err = 0 ∧ (stateWith (cellsFrom 0 lastBlock.toList) []).err = 0 ∧
    (64 : Word).toNat + 16 ≤ filledBlock.cfg.wmemWords ∧
    (0 : Word).toNat + 16 ≤ (stateWith (cellsFrom 0 lastBlock.toList) []).cfg.wmemWords ∧
    filledBlock.holdsBlock (64 : Word).toNat lastBlock ∧
    (stateWith (cellsFrom 0 lastBlock.toList) []).holdsBlock (0 : Word).toNat lastBlock := by decide

/-- One chunk in two layouts on two blocks of different sizes. -/
def chunkAt100 : State :=
  stateWith ((List.range 32).map fun i => (100 + i, BitVec.ofNat 32 (i * 0x01000193))) []

theorem witness_BmixDependsOnItsChunkAlone :
    ∃ t t', exec (.bmix 0 32 1) filledBlock = .next t ∧ exec (.bmix 100 3 1) chunkAt100 = .next t' ∧
      t.reply = .response 0 ∧ t'.reply = .response 0 ∧
      ∀ k < 32 * (1 : Word).toNat, (filledBlock.w.read ((0 : Word).toNat + k)).isSome ∧
        filledBlock.w.read ((0 : Word).toNat + k) = chunkAt100.w.read ((100 : Word).toNat + k) :=
  ⟨_, _, rfl, rfl, by decide, by decide, by decide⟩

theorem witness_BmixEqualsItsCommandSequence :
    filledBlock.cfg.bounded ∧ filledBlock.err = 0 ∧ 1 ≤ (1 : Word).toNat ∧
    (16 : Word).toNat + 32 * (1 : Word).toNat ≤ filledBlock.cfg.wmemWords ∧
    (48 : Word).toNat + 32 * (1 : Word).toNat ≤ filledBlock.cfg.wmemWords ∧ 0 + 16 ≤ filledBlock.cfg.wmemWords ∧
    (16 : Word).toNat + 32 * (1 : Word).toNat ≤ (48 : Word).toNat ∧ 0 + 16 ≤ (16 : Word).toNat ∧
    0 + 16 ≤ (48 : Word).toNat ∧
    ∀ k < 32 * (1 : Word).toNat, (filledBlock.w.read ((16 : Word).toNat + k)).isSome := by decide

theorem witness_BmixOfTwoBlocksLeavesEqualRegions :
    ∃ t, exec (.bmix 0 32 1) filledBlock = .next t ∧ t.reply = .response 0 ∧
      ∀ k < 32, (filledBlock.w.read ((0 : Word).toNat + k)).isSome :=
  ⟨_, rfl, by decide, by decide⟩

theorem witness_CodecRoundTrip :
    filledBlock.err = 0 ∧ (40 : Word).toNat = 4 * (10 : Word).toNat ∧
    (70 : Word).toNat + (10 : Word).toNat ≤ filledBlock.cfg.wmemWords ∧
    (0 : Word).toNat + (40 : Word).toNat ≤ filledBlock.cfg.bmemBytes ∧
    (∀ k < (40 : Word).toNat, (filledBlock.bm.read ((0 : Word).toNat + k)).isSome) ∧
    ∀ j < (10 : Word).toNat, (filledBlock.w.read ((70 : Word).toNat + j)).isSome := by decide

theorem witness_BlockOpsLaws :
    filledBlock.err = 0 ∧ (0 : Word).toNat + (40 : Word).toNat ≤ filledBlock.cfg.wmemWords ∧
    (40 : Word).toNat + (40 : Word).toNat ≤ filledBlock.cfg.wmemWords ∧
    (0 : Word).toNat + (40 : Word).toNat ≤ (40 : Word).toNat ∧
    (∀ i < (40 : Word).toNat, (filledBlock.w.read ((0 : Word).toNat + i)).isSome) ∧
    ∀ i < (40 : Word).toNat, (filledBlock.w.read ((40 : Word).toNat + i)).isSome := by decide

/-! The machine as a whole. -/

theorem witness_StepKeepsInvariant :
    ∃ t, (pending [.issue 0x07]).Inv ∧ filledBlock.Inv ∧ lockedBlock.Inv ∧ step (pending [.issue 0x07]) = .next t :=
  ⟨_, by decide, by decide, by decide, rfl⟩

theorem witness_ResetMeetsInvariant : Config.bounded ⟨1, 1⟩ ∧ Config.bounded ⟨2 ^ 29 - 1, 2 ^ 31 - 1⟩ := by decide

theorem witness_StepStopsOnlyOutsideMemory :
    (∃ t, step (pending [.rdW 255]) = .next t) ∧
    step (pending [.rdW 256]) = .fault (.hostAddressOutsideMemory 256) := ⟨⟨_, rfl⟩, rfl⟩

theorem witness_SizesNeverChange : ∃ t, step (pending [.reset]) = .next t := ⟨_, rfl⟩

theorem witness_OnlyW2bWritesBytes :
    (∃ t, exec (.w2b 0 36 1) filledBlock = .next t) ∧ ∃ t, exec (.b2w 0 0 4) filledBlock = .next t :=
  ⟨⟨_, rfl⟩, _, rfl⟩

theorem witness_OnlyB2wReadsBytes :
    (∃ t, exec (.salsa 64) filledBlock = .next t) ∧
    ∃ t, exec (.w2b 79 36 1) filledBlock = .next t ∧ t.reply = .response 0 ∧
      byteWritten (.w2b 79 36 1) 39 = true ∧ byteWritten (.w2b 79 36 1) 35 = false :=
  ⟨⟨_, rfl⟩, _, rfl, by decide, by decide, by decide⟩

/-- The clause of a W2B that does not execute: one byte too far. -/
theorem witness_OnlyB2wReadsBytes_refused :
    ∃ t, exec (.w2b 79 37 1) filledBlock = .next t ∧ t.reply ≠ .response 0 := ⟨_, rfl, by decide⟩

theorem witness_HiddenRegistersUnobservable : ∃ t, step (pending [.issue 0x05]) = .next t := ⟨_, rfl⟩

theorem witness_ResponseDecidedWithoutData :
    ∃ t t', { filledBlock with w := [], bm := [] }.cfg = filledBlock.cfg ∧
      { filledBlock with w := [], bm := [] }.err = filledBlock.err ∧
      exec (.salsa 64) { filledBlock with w := [], bm := [] } = .next t ∧ exec (.salsa 64) filledBlock = .next t' :=
  ⟨_, _, rfl, rfl, rfl, rfl⟩

theorem witness_CommandsLeaveCellsWritten :
    ∃ t, exec (.salsa 64) filledBlock = .next t ∧ t.reply = .response 0 ∧ (filledBlock.w.read 63).isSome ∧
      (filledBlock.bm.read 39).isSome ∧ wordWritten (.salsa 64) 79 = true ∧ byteWritten (.w2b 0 36 1) 39 = true :=
  ⟨_, rfl, by decide, by decide, by decide, by decide, by decide⟩

theorem witness_GoodRunEndsWithoutError :
    ∃ t, State.reset.err = 0 ∧ State.reset.reply.okOrSilent = true ∧
      HostMove.reset ∉ (pending [.wrW 255 7, .issue 0x05]).host ∧
      core.run 3 (pending [.wrW 255 7, .issue 0x05]) = .next t :=
  ⟨_, rfl, rfl, by decide, rfl⟩

/-! The host's ports and reset: the last cell of each memory, the first that does not exist, the last CSR. -/

theorem witness_HostWritesOneCell :
    (pending [.wrW 255 7]).host = .wrW 255 7 :: [] ∧ 255 < State.reset.cfg.wmemWords ∧
    (pending [.wrB 255 7]).host = .wrB 255 7 :: [] ∧ 255 < State.reset.cfg.bmemBytes := by decide

theorem witness_HostReadsReturnTheCell :
    ({ filledBlock with host := [.rdW 79] } : State).host = .rdW 79 :: [] ∧ 79 < filledBlock.cfg.wmemWords ∧
    filledBlock.w.read 79 = some 0x4f007c5d ∧
    ({ filledBlock with host := [.rdB 39] } : State).host = .rdB 39 :: [] ∧ 39 < filledBlock.cfg.bmemBytes ∧
    filledBlock.bm.read 39 = some 117 := by decide

theorem witness_CsrReadsStatusRegisters :
    ({ lockedBlock with host := [.rdCsr .errcmd3] } : State).host = .rdCsr .errcmd3 :: [] := by decide

theorem witness_HostAddressOutsideMemoryStops :
    (pending [.rdW 256]).host = .rdW 256 :: [] ∧ (pending [.wrW 256 7]).host = .wrW 256 7 :: [] ∧
    (pending [.rdB 256]).host = .rdB 256 :: [] ∧ (pending [.wrB 256 7]).host = .wrB 256 7 :: [] ∧
    State.reset.cfg.wmemWords ≤ 256 ∧ State.reset.cfg.bmemBytes ≤ 256 := by decide

theorem witness_ResetClearsTheBlock : ({ lockedBlock with host := [.reset] } : State).host = .reset :: [] := by decide

end Sys2Proof.Machine
end

section
/-! PROOFS. What one Salsa update does to the block (42_salsa20_8 R142, R143). -/

namespace Sys2Proof.Machine

/-- Below the word length the model's two shifts are the library's rotation (00_scope R12). -/
theorem rotl_eq_rotateLeft (v : Word) {k : Nat} (hk : k < 32) : rotl v k = v.rotateLeft k :=
  (BitVec.rotateLeft_eq_rotateLeftAux_of_lt hk).symm

theorem applyUpdate_get_self (x : Block) (u : Update) :
    (applyUpdate x u).get u.d = x.get u.d ^^^ rotl (x.get u.a + x.get u.b) u.k := by
  rw [applyUpdate, Vector.get_eq_getElem, Vector.getElem_set_self]

theorem applyUpdate_get_ne (x : Block) (u : Update) {j : Fin 16} (hj : j ≠ u.d) :
    (applyUpdate x u).get j = x.get j := by
  have hne : u.d.val ≠ j.val := fun h => hj (Fin.ext h.symm)
  rw [applyUpdate, Vector.get_eq_getElem, Vector.getElem_set_ne _ _ hne, Vector.get_eq_getElem]

theorem applyUpdates_append_singleton (us : List Update) (u : Update) (x : Block) :
    applyUpdates (us ++ [u]) x = applyUpdate (applyUpdates us x) u := by
  simp [applyUpdates]

/-- In each row of the table of R143 the three indices differ and the rotation stays below the word length. -/
theorem update_row_wellFormed :
    ∀ u ∈ columnRound ++ rowRound, (u.d ≠ u.a ∧ u.d ≠ u.b ∧ u.a ≠ u.b) ∧ u.k < 32 := by
  decide

/-- Settles O28: the table's rows are well formed, and an update sets one word to the rotated wrapping sum. -/
theorem updateChangesOneWord : Obligations.UpdateChangesOneWord := by
  intro x u hu
  obtain ⟨hdistinct, hk⟩ := update_row_wellFormed u hu
  refine ⟨hdistinct, ?_, fun j hj => applyUpdate_get_ne x u hj, fun us => applyUpdates_append_singleton us u x⟩
  rw [applyUpdate_get_self, rotl_eq_rotateLeft _ hk, BitVec.add_def]

end Sys2Proof.Machine
end

section
/-! PROOFS. What a step can do, move by move: with no move pending it is idle (60_exceptions R218), otherwise it is the
first pending move (20_memory R55). -/

namespace Sys2Proof.Machine

theorem step_of_idle {s : State} (h : s.host = []) : step s = .next s := by
  simp [step, stepHost, h]

theorem step_of_move {s : State} {m : HostMove} {rest : List HostMove} (h : s.host = m :: rest) :
    step s = runMove m { s with host := rest } := by
  simp [step, stepHost, h]

/-! A host access goes on exactly when its address exists (20_memory R57). -/

theorem hostWrW_next {a : Nat} {v : Word} {s t : State} :
    hostWrW a v s = .next t ↔ a < s.cfg.wmemWords ∧ ({ s with reply := .none } : State).writeW a v = t := by
  unfold hostWrW
  split <;> simp [*]

theorem hostRdW_next {a : Nat} {s t : State} :
    hostRdW a s = .next t ↔ a < s.cfg.wmemWords ∧ { s.tick 1 with reply := .word (s.peekW a) } = t := by
  unfold hostRdW
  split <;> simp [*]

theorem hostWrB_next {a : Nat} {v : Byte} {s t : State} :
    hostWrB a v s = .next t ↔ a < s.cfg.bmemBytes ∧ ({ s with reply := .none } : State).writeB a v = t := by
  unfold hostWrB
  split <;> simp [*]

theorem hostRdB_next {a : Nat} {s t : State} :
    hostRdB a s = .next t ↔ a < s.cfg.bmemBytes ∧ { s.tick 1 with reply := .byte (s.peekB a) } = t := by
  unfold hostRdB
  split <;> simp [*]

/-- The three ways an `Issue` goes: the block is locked, the word is illegal, or the command it decodes to runs
(60_exceptions R206, R201, R207). -/
theorem issue_cases (cmd : Command) (s : State) :
    (s.err ≠ 0 ∧ issue cmd s = .next (s.respond lockedCode)) ∨
    (s.err = 0 ∧ (∃ e, decode cmd = .error e) ∧ issue cmd s = .next (s.raiseFault .illegal cmd)) ∨
    (s.err = 0 ∧ ∃ i, decode cmd = .ok i ∧ issue cmd s = exec i s) := by
  by_cases herr : s.err = 0
  · cases hd : decode cmd with
    | error e => exact .inr (.inl ⟨herr, ⟨e, rfl⟩, by simp [issue, herr, hd]⟩)
    | ok i => exact .inr (.inr ⟨herr, i, rfl, by simp [issue, herr, hd]⟩)
  · exact .inl ⟨herr, by rw [issue, if_pos herr]⟩

end Sys2Proof.Machine
end

section
/-! PROOFS. The sizes are parameters of the machine (10_state R34): no command, no host move and no step changes
them. -/

namespace Sys2Proof.Machine

theorem exec_keeps_sizes {i : Instr} {s t : State} (h : exec i s = .next t) : t.cfg = s.cfg := by
  obtain ⟨-, he⟩ | ⟨-, f, -, he⟩ | ⟨-, -, he⟩ := exec_cases i s
  all_goals
    rw [he] at h
    cases h
  · exact State.respond_cfg s lockedCode
  · exact State.raiseFault_cfg s f (encode i)
  · rw [State.respond_cfg, (bodyOf_sameControl i s).cfg]

theorem issue_keeps_sizes {cmd : Command} {s t : State} (h : issue cmd s = .next t) : t.cfg = s.cfg := by
  obtain ⟨-, he⟩ | ⟨-, -, he⟩ | ⟨-, i, -, he⟩ := issue_cases cmd s
  all_goals rw [he] at h
  · cases h
    exact State.respond_cfg s lockedCode
  · cases h
    exact State.raiseFault_cfg s .illegal cmd
  · exact exec_keeps_sizes h

theorem runMove_keeps_sizes {m : HostMove} {s t : State} (h : runMove m s = .next t) : t.cfg = s.cfg := by
  cases m with
  | wrW a v => obtain ⟨-, rfl⟩ := hostWrW_next.mp h; rfl
  | rdW a => obtain ⟨-, rfl⟩ := hostRdW_next.mp h; rfl
  | wrB a v => obtain ⟨-, rfl⟩ := hostWrB_next.mp h; rfl
  | rdB a => obtain ⟨-, rfl⟩ := hostRdB_next.mp h; rfl
  | rdCsr n => cases h; rfl
  | issue cmd => exact issue_keeps_sizes h
  | reset => cases h; exact State.hostReset_cfg s

/-- Settles O42: an idle step changes nothing, and every move of the host keeps the sizes. -/
theorem sizesNeverChange : Obligations.SizesNeverChange := by
  intro s t h
  cases hs : s.host with
  | nil =>
    rw [step_of_idle hs] at h
    cases h
    rfl
  | cons m rest =>
    rw [step_of_move hs] at h
    exact runMove_keeps_sizes (s := { s with host := rest }) h

end Sys2Proof.Machine
end

section
/-! PROOFS. The state after reset (10_state R33). -/

namespace Sys2Proof.Machine

/-- The start of a run meets the invariant as soon as the sizes do: both memories are empty and `ERR` and `ERRCMD`
are 0. -/
theorem State.boot_inv {cfg : Config} (hcfg : cfg.bounded) (moves : List HostMove) : (State.boot cfg moves).Inv :=
  ⟨hcfg, rfl, rfl, rfl, rfl, fun _ => rfl, fun herr => absurd rfl herr⟩

/-- The state after reset is the start of a run of no moves on a block of the test configuration (log entry 1). -/
theorem State.reset_eq_boot : State.reset = State.boot Config.test [] := rfl

theorem config_test_bounded : Config.test.bounded := by
  decide

/-- Settles O39: the state after reset is itself the start of a run, on the sizes of the test configuration. -/
theorem resetMeetsInvariant : Obligations.ResetMeetsInvariant :=
  ⟨State.reset_eq_boot ▸ State.boot_inv config_test_bounded [], fun _ moves hcfg => State.boot_inv hcfg moves⟩

/-- Settles O54: each register by its definition, and an empty memory has no written cell. -/
theorem stateAfterReset : Obligations.StateAfterReset :=
  ⟨rfl, rfl, Memory.read_nil, Memory.read_nil, rfl, rfl, rfl⟩

end Sys2Proof.Machine
end

section
/-! PROOFS. The word a fault records in `ERRCMD` decodes to the command that raised it (30_encoding R83), so the fault
can be decided again from the word (60_exceptions R200). -/

namespace Sys2Proof

/-- The decoder on a word with RSV zero depends on its opcode and operands alone. -/
theorem decode_pack (op : BitVec 8) (a b c : Word) :
    decode (.pack op a b c) =
      if op = 0x00 ∨ 0x07 ≤ op then .error .reservedOpcode
      else if op = 0x05 ∧ (b ≠ 0 ∨ c ≠ 0) then .error .unusedOperand
      else if op = 0x01 then .ok (.b2w a b c)
      else if op = 0x02 then .ok (.w2b a b c)
      else if op = 0x03 then .ok (.copy a b c)
      else if op = 0x04 then .ok (.xor a b c)
      else if op = 0x05 then .ok (.salsa a)
      else .ok (.bmix a b c) := by
  simp only [decode, Command.pack_op, Command.pack_rsv, Command.pack_a, Command.pack_b, Command.pack_c, ne_eq,
    not_true_eq_false, if_false]

theorem decode_encode (i : Instr) : decode (encode i) = .ok i := by
  cases i <;> simp [encode, decode_pack]

namespace Machine

theorem faultOf_of_illegal {cmd : Command} {e : Illegal} (h : decode cmd = .error e) (cfg : Config) :
    faultOf cfg cmd = some .illegal := by
  simp [faultOf, h]

theorem faultOf_encode (cfg : Config) (i : Instr) : faultOf cfg (encode i) = checkInstr cfg i := by
  simp [faultOf, decode_encode]

end Machine

end Sys2Proof
end

section
/-! PROOFS. Each of the three ways an `Issue` goes, as an equation (60_exceptions R206, R201, R207). -/

namespace Sys2Proof.Machine

theorem issue_locked {cmd : Command} {s : State} (h : s.err ≠ 0) : issue cmd s = .next (s.respond lockedCode) := by
  rw [issue, if_pos h]

theorem issue_illegal {cmd : Command} {s : State} {e : Illegal} (h : s.err = 0) (hd : decode cmd = .error e) :
    issue cmd s = .next (s.raiseFault .illegal cmd) := by
  simp [issue, h, hd]

theorem issue_legal {cmd : Command} {s : State} {i : Instr} (h : s.err = 0) (hd : decode cmd = .ok i) :
    issue cmd s = exec i s := by
  simp [issue, h, hd]

end Sys2Proof.Machine
end

section
/-! PROOFS. Every step keeps the invariant (10_state R20, R27, R28). -/

namespace Sys2Proof.Machine

theorem State.inv_iff {s : State} : s.Inv ↔ s.cfg.bounded ∧ s.MemOk ∧ s.statusProper :=
  ⟨fun ⟨hcfg, hw, hwin, hb, hbin, hstatus⟩ => ⟨hcfg, ⟨hw, hwin, hb, hbin⟩, hstatus⟩,
    fun ⟨hcfg, ⟨hw, hwin, hb, hbin⟩, hstatus⟩ => ⟨hcfg, hw, hwin, hb, hbin, hstatus⟩⟩

/-- `ERR` holds 0 for no fault (60_exceptions R200). -/
theorem FaultCode.code_setWidth_ne_zero (f : FaultCode) : f.code.setWidth 32 ≠ 0 := by
  cases f <;> decide

theorem State.statusProper_congr {s u : State} (h : s.statusProper) (hcfg : u.cfg = s.cfg) (herr : u.err = s.err)
    (hcmd : u.errcmd = s.errcmd) : u.statusProper := by
  unfold State.statusProper
  rw [hcfg, herr, hcmd]
  exact h

theorem State.statusProper_raiseFault {s : State} {f : FaultCode} {cmd : Command} (h : faultOf s.cfg cmd = some f) :
    (s.raiseFault f cmd).statusProper := by
  refine ⟨fun herr => absurd herr f.code_setWidth_ne_zero, fun _ => ?_⟩
  rw [State.raiseFault_cfg, State.raiseFault_errcmd, State.raiseFault_err, h]
  rfl

/-- The invariant is about the sizes, the memories and the status registers alone. -/
theorem State.inv_congr {s u : State} (h : s.Inv) (hcfg : u.cfg = s.cfg) (hw : u.w = s.w) (hbm : u.bm = s.bm)
    (herr : u.err = s.err) (hcmd : u.errcmd = s.errcmd) : u.Inv := by
  obtain ⟨hb, hmem, hstatus⟩ := State.inv_iff.mp h
  exact State.inv_iff.mpr ⟨hcfg ▸ hb, hmem.congr hcfg hw hbm, State.statusProper_congr hstatus hcfg herr hcmd⟩

theorem State.inv_raiseFault {s : State} {f : FaultCode} {cmd : Command} (h : s.Inv)
    (hf : faultOf s.cfg cmd = some f) : (s.raiseFault f cmd).Inv := by
  obtain ⟨hb, hmem, -⟩ := State.inv_iff.mp h
  exact State.inv_iff.mpr ⟨hb, hmem.congr rfl rfl rfl, State.statusProper_raiseFault hf⟩

theorem State.inv_writeW {s : State} {a : Nat} (h : s.Inv) (ha : a < s.cfg.wmemWords) (v : Word) :
    (s.writeW a v).Inv := by
  obtain ⟨hb, hmem, hstatus⟩ := State.inv_iff.mp h
  exact State.inv_iff.mpr ⟨hb, hmem.writeW ha v, hstatus⟩

theorem State.inv_writeB {s : State} {a : Nat} (h : s.Inv) (ha : a < s.cfg.bmemBytes) (v : Byte) :
    (s.writeB a v).Inv := by
  obtain ⟨hb, hmem, hstatus⟩ := State.inv_iff.mp h
  exact State.inv_iff.mpr ⟨hb, hmem.writeB ha v, hstatus⟩

theorem State.inv_hostReset {s : State} (h : s.Inv) : s.hostReset.Inv :=
  State.inv_iff.mpr ⟨h.1, ⟨rfl, rfl, rfl, rfl⟩, fun _ => rfl, fun herr => absurd rfl herr⟩

/-- A command that runs keeps the memories' form because its checks passed, and touches no status register. -/
theorem bodyOf_inv {i : Instr} {s : State} (h : s.Inv) (hc : checkInstr s.cfg i = none) : (bodyOf i s).Inv := by
  obtain ⟨hb, hmem, hstatus⟩ := State.inv_iff.mp h
  obtain ⟨hcfg, herr, hcmd, -, -⟩ := bodyOf_sameControl i s
  exact State.inv_iff.mpr ⟨hcfg ▸ hb, (bodyOf_kept hc hmem).mem, State.statusProper_congr hstatus hcfg herr hcmd⟩

theorem exec_keeps_inv {i : Instr} {s t : State} (hs : s.Inv) (h : exec i s = .next t) : t.Inv := by
  obtain ⟨-, he⟩ | ⟨-, f, hf, he⟩ | ⟨-, hc, he⟩ := exec_cases i s
  all_goals
    rw [he] at h
    cases h
  · exact State.inv_congr hs rfl rfl rfl rfl rfl
  · exact State.inv_raiseFault hs ((faultOf_encode s.cfg i).trans hf)
  · exact State.inv_congr (bodyOf_inv hs hc) rfl rfl rfl rfl rfl

theorem issue_keeps_inv {cmd : Command} {s t : State} (hs : s.Inv) (h : issue cmd s = .next t) : t.Inv := by
  obtain ⟨-, he⟩ | ⟨-, ⟨e, hd⟩, he⟩ | ⟨-, i, -, he⟩ := issue_cases cmd s
  all_goals rw [he] at h
  · cases h
    exact State.inv_congr hs rfl rfl rfl rfl rfl
  · cases h
    exact State.inv_raiseFault hs (faultOf_of_illegal hd s.cfg)
  · exact exec_keeps_inv hs h

theorem runMove_keeps_inv {m : HostMove} {s t : State} (hs : s.Inv) (h : runMove m s = .next t) : t.Inv := by
  have hquiet : ({ s with reply := .none } : State).Inv := State.inv_congr hs rfl rfl rfl rfl rfl
  cases m with
  | wrW a v => obtain ⟨ha, rfl⟩ := hostWrW_next.mp h; exact State.inv_writeW hquiet ha v
  | rdW a => obtain ⟨-, rfl⟩ := hostRdW_next.mp h; exact State.inv_congr hs rfl rfl rfl rfl rfl
  | wrB a v => obtain ⟨ha, rfl⟩ := hostWrB_next.mp h; exact State.inv_writeB hquiet ha v
  | rdB a => obtain ⟨-, rfl⟩ := hostRdB_next.mp h; exact State.inv_congr hs rfl rfl rfl rfl rfl
  | rdCsr n => cases h; exact State.inv_congr hs rfl rfl rfl rfl rfl
  | issue cmd => exact issue_keeps_inv hs h
  | reset => cases h; exact State.inv_hostReset hs

/-- Settles O38: an idle step changes nothing, and every move of the host keeps the invariant. -/
theorem stepKeepsInvariant : Obligations.StepKeepsInvariant := by
  intro s t hs h
  cases hm : s.host with
  | nil =>
    rw [step_of_idle hm] at h
    cases h
    exact hs
  | cons m rest =>
    rw [step_of_move hm] at h
    exact runMove_keeps_inv (s := { s with host := rest }) (State.inv_congr hs rfl rfl rfl rfl rfl) h

end Sys2Proof.Machine
end

section
/-! PROOFS. A locked block leaves `ERR` and `ERRCMD` alone until Reset (10_state R27, R28; 60_exceptions R210). -/

namespace Sys2Proof.Machine

theorem runMove_keeps_status {m : HostMove} {s t : State} (hs : s.err ≠ 0) (hm : m ≠ .reset)
    (h : runMove m s = .next t) : t.err = s.err ∧ t.errcmd = s.errcmd := by
  cases m with
  | wrW a v => obtain ⟨-, rfl⟩ := hostWrW_next.mp h; exact ⟨rfl, rfl⟩
  | rdW a => obtain ⟨-, rfl⟩ := hostRdW_next.mp h; exact ⟨rfl, rfl⟩
  | wrB a v => obtain ⟨-, rfl⟩ := hostWrB_next.mp h; exact ⟨rfl, rfl⟩
  | rdB a => obtain ⟨-, rfl⟩ := hostRdB_next.mp h; exact ⟨rfl, rfl⟩
  | rdCsr n => cases h; exact ⟨rfl, rfl⟩
  | issue cmd => cases (issue_locked hs).symm.trans h; exact ⟨rfl, rfl⟩
  | reset => exact absurd rfl hm

/-- Settles O19: the move of the step is not a Reset, and every other move keeps both registers of a locked block. -/
theorem errorStaysUntilReset : Obligations.ErrorStaysUntilReset := by
  intro s t herr hreset h
  cases hm : s.host with
  | nil =>
    rw [step_of_idle hm] at h
    cases h
    exact ⟨rfl, rfl⟩
  | cons m rest =>
    rw [step_of_move hm] at h
    exact runMove_keeps_status (s := { s with host := rest }) herr (fun e => hreset (by rw [hm, e]; rfl)) h

end Sys2Proof.Machine
end

section
/-! PROOFS. Edits of the state that commands working on `W` do not see. COPY and XOR commute with every such edit;
putting other contents into `BM` (10_state R23) and putting other values into `S` and `T` (R24, R25) are two. -/

namespace Sys2Proof.Machine

/-- An edit of the state that leaves alone what checks, answers and accesses to `W` depend on, and commutes with
them. -/
structure Unseen (g : State → State) : Prop where
  cfg : ∀ s, (g s).cfg = s.cfg
  err : ∀ s, (g s).err = s.err
  w : ∀ s, (g s).w = s.w
  free : ∀ s, (g s).free = s.free
  tick : ∀ n s, (g s).tick n = g (s.tick n)
  writeW : ∀ a v s, (g s).writeW a v = g (s.writeW a v)
  respond : ∀ c s, (g s).respond c = g (s.respond c)
  raiseFault : ∀ f cmd s, (g s).raiseFault f cmd = g (s.raiseFault f cmd)

/-- `BM` with other contents. -/
def State.withBytes (m : Memory Byte) (s : State) : State :=
  { s with bm := m }

/-- `S` and `T` with other values. -/
def State.withHidden (x t : Block) (s : State) : State :=
  { s with x := x, t := t }

theorem unseen_withBytes (m : Memory Byte) : Unseen (State.withBytes m) := by
  constructor <;> intros <;> rfl

theorem unseen_withHidden (x t : Block) : Unseen (State.withHidden x t) := by
  constructor <;> intros <;> rfl

/-- An edit that commutes with every turn commutes with the loop. -/
theorem forUp_comm {g : State → State} {body : Nat → State → State} (hb : ∀ i s, body i (g s) = g (body i s))
    (n : Nat) (s : State) : forUp n body (g s) = g (forUp n body s) := by
  induction n with
  | zero => rfl
  | succ n ih => rw [forUp_succ, forUp_succ, ih, hb]

namespace Unseen

variable {g : State → State} (hg : Unseen g)
include hg

theorem peekW (a : Nat) (s : State) : (g s).peekW a = s.peekW a :=
  State.peekW_congr (by rw [hg.w]) (hg.free s)

theorem peekBlock (a : Nat) (s : State) : (g s).peekBlock a = s.peekBlock a :=
  State.peekBlock_congr (fun _ _ => by rw [hg.w]) (hg.free s)

theorem writeWords (vs : List Word) (a : Nat) (s : State) : (g s).writeWords a vs = g (s.writeWords a vs) := by
  induction vs generalizing a s with
  | nil => rfl
  | cons v vs ih => simp only [State.writeWords, hg.writeW, ih]

theorem writeBlock (v : Block) (a : Nat) (s : State) : (g s).writeBlock a v = g (s.writeBlock a v) :=
  hg.writeWords v.toList a s

theorem copyWords (src dst n : Nat) (s : State) :
    Machine.copyWords src dst n (g s) = g (Machine.copyWords src dst n s) :=
  forUp_comm (fun i u => by simp only [copyCell, hg.tick, hg.writeW, hg.peekW]) n s

theorem xorWords (src dst n : Nat) (s : State) :
    Machine.xorWords src dst n (g s) = g (Machine.xorWords src dst n s) :=
  forUp_comm (fun i u => by simp only [xorCell, hg.tick, hg.writeW, hg.peekW]) n s

theorem deinterleave (xaddr yaddr r : Nat) (s : State) :
    Machine.deinterleave xaddr yaddr r (g s) = g (Machine.deinterleave xaddr yaddr r s) := by
  unfold Machine.deinterleave
  rw [forUp_comm fun i u => hg.copyWords _ _ _ u, forUp_comm fun i u => hg.copyWords _ _ _ u]

/-- The edit changes neither whether a command is refused nor its refusal; a command that executes runs its body on the
edited state. -/
theorem exec_next {i : Instr} {s t : State} (h : exec i s = .next t) :
    (t.reply ≠ .response 0 ∧ exec i (g s) = .next (g t)) ∨
    (checkInstr s.cfg i = none ∧ t = (bodyOf i s).respond okCode ∧
      exec i (g s) = .next ((bodyOf i (g s)).respond okCode)) := by
  obtain ⟨herr, he⟩ | ⟨herr, f, hf, he⟩ | ⟨herr, hc, he⟩ := exec_cases i s
  all_goals
    rw [he] at h
    cases h
  · exact .inl ⟨by simp [lockedCode], by rw [exec_locked (by rwa [hg.err]), hg.respond]⟩
  · refine .inl ⟨?_, by rw [exec_fault (by rwa [hg.err]) (by rwa [hg.cfg]), hg.raiseFault]⟩
    rw [State.raiseFault_reply]
    cases f <;> decide
  · exact .inr ⟨hc, rfl, exec_ok (by rwa [hg.err]) (by rwa [hg.cfg])⟩

end Unseen

end Sys2Proof.Machine
end

section
/-! PROOFS. Of the commands only W2B writes `BM` and only B2W reads it (10_state R23, 20_memory R40, R45). -/

namespace Sys2Proof.Machine

theorem salsaAt_withBytes (m : Memory Byte) (addr : Nat) (s : State) :
    salsaAt addr (s.withBytes m) = (salsaAt addr s).withBytes m := by
  unfold salsaAt
  rw [(unseen_withBytes m).peekBlock, ← (unseen_withBytes m).writeBlock]
  rfl

theorem mixSlot_withBytes (m : Memory Byte) (xaddr yaddr i : Nat) (s : State) :
    mixSlot xaddr yaddr i (s.withBytes m) = (mixSlot xaddr yaddr i s).withBytes m := by
  unfold mixSlot
  rw [(unseen_withBytes m).peekBlock, ← (unseen_withBytes m).writeBlock]
  rfl

theorem blockMix_withBytes (m : Memory Byte) (xaddr yaddr r : Nat) (s : State) :
    blockMix xaddr yaddr r (s.withBytes m) = (blockMix xaddr yaddr r s).withBytes m := by
  have hload : loadLast xaddr r (s.withBytes m) = (loadLast xaddr r s).withBytes m := by
    unfold loadLast
    rw [(unseen_withBytes m).peekBlock]
    rfl
  unfold blockMix mixPhase
  rw [hload, forUp_comm (mixSlot_withBytes m xaddr yaddr), (unseen_withBytes m).deinterleave]

/-- COPY, XOR, SALSA and BMIX neither read nor write `BM`. -/
theorem bodyOf_withBytes {i : Instr} (hread : ∀ bsrc wdst nbytes, i ≠ .b2w bsrc wdst nbytes)
    (hwrite : ∀ wsrc bdst nwords, i ≠ .w2b wsrc bdst nwords) (m : Memory Byte) (s : State) :
    bodyOf i (s.withBytes m) = (bodyOf i s).withBytes m := by
  cases i with
  | b2w bsrc wdst nbytes => exact absurd rfl (hread _ _ _)
  | w2b wsrc bdst nwords => exact absurd rfl (hwrite _ _ _)
  | copy srcPos dstPos len => exact (unseen_withBytes m).copyWords _ _ _ s
  | xor srcPos dstPos len => exact (unseen_withBytes m).xorWords _ _ _ s
  | salsa addr => exact salsaAt_withBytes m _ s
  | bmix xaddr yaddr r => exact blockMix_withBytes m _ _ _ s

/-- B2W writes words alone; the other commands would leave any contents of `BM`, so they leave the present ones. -/
theorem bodyOf_bm {i : Instr} (hwrite : ∀ wsrc bdst nwords, i ≠ .w2b wsrc bdst nwords) (s : State) :
    (bodyOf i s).bm = s.bm := by
  by_cases hread : ∃ bsrc wdst nbytes, i = .b2w bsrc wdst nbytes
  · obtain ⟨bsrc, wdst, nbytes, rfl⟩ := hread
    rw [bodyOf_b2w, (b2wWords_spec _ _ _ s).1]
  · have h : bodyOf i s = (bodyOf i s).withBytes s.bm :=
      bodyOf_withBytes (fun b w n e => hread ⟨b, w, n, e⟩) hwrite s.bm s
    rw [h]
    rfl

/-- Settles O43: a refusal touches neither memory, and the bodies are as `bodyOf_bm` and `w2bWords_spec` say. -/
theorem onlyW2bWritesBytes : Obligations.OnlyW2bWritesBytes := by
  intro i s t h
  obtain ⟨-, he⟩ | ⟨-, f, -, he⟩ | ⟨-, -, he⟩ := exec_cases i s
  all_goals
    rw [he] at h
    cases h
  · exact ⟨fun _ => rfl, fun _ => rfl⟩
  · exact ⟨fun _ => rfl, fun _ => rfl⟩
  · refine ⟨fun hwrite => bodyOf_bm hwrite s, ?_⟩
    rintro ⟨wsrc, bdst, nwords, rfl⟩
    rw [State.respond_w, bodyOf_w2b, (w2bWords_spec _ _ _ s).1]

theorem byteWritten_w2b {wsrc bdst nwords : Word} {a : Nat} :
    byteWritten (.w2b wsrc bdst nwords) a = true ↔ bdst.toNat ≤ a ∧ a < bdst.toNat + 4 * nwords.toNat := by
  simp [byteWritten]

theorem byteWritten_of_not_w2b {i : Instr} (hwrite : ∀ wsrc bdst nwords, i ≠ .w2b wsrc bdst nwords) (a : Nat) :
    byteWritten i a = false := by
  cases i with
  | w2b wsrc bdst nwords => exact absurd rfl (hwrite _ _ _)
  | b2w | copy | xor | salsa | bmix => rfl

/-- Whatever `BM` holds, W2B does the same to the rest of the state. -/
theorem w2bWords_withBytes (m : Memory Byte) (wsrc bdst n : Nat) (s : State) :
    w2bWords wsrc bdst n (s.withBytes m) =
      (w2bWords wsrc bdst n s).withBytes (w2bWords wsrc bdst n (s.withBytes m)).bm := by
  conv_lhs => rw [(w2bWords_spec wsrc bdst n (s.withBytes m)).1]
  rw [(w2bWords_spec wsrc bdst n s).1]
  rfl

/-- Whatever `BM` holds, W2B leaves the same bytes in its destination and every other byte as it was. -/
theorem w2bWords_withBytes_read (m : Memory Byte) (wsrc bdst n : Nat) (s : State) (a : Nat) :
    (w2bWords wsrc bdst n (s.withBytes m)).bm.read a =
      if bdst ≤ a ∧ a < bdst + 4 * n then (w2bWords wsrc bdst n s).bm.read a else m.read a := by
  obtain ⟨-, hout, hin⟩ := w2bWords_spec wsrc bdst n (s.withBytes m)
  obtain ⟨-, -, hin'⟩ := w2bWords_spec wsrc bdst n s
  split
  · next ha =>
    obtain ⟨j, k, hj, hk, rfl⟩ : ∃ j k, j < n ∧ k < 4 ∧ a = bdst + 4 * j + k :=
      ⟨(a - bdst) / 4, (a - bdst) % 4, by omega, by omega, by omega⟩
    rw [hin j hj k hk, hin' j hj k hk]
    rfl
  · next ha => exact hout a (by omega)

/-- The other commands, and a W2B that is refused, leave every byte of `m` as it is. -/
theorem exec_withBytes {i : Instr} {s t : State} (m : Memory Byte)
    (hread : ∀ bsrc wdst nbytes, i ≠ .b2w bsrc wdst nbytes) (h : exec i s = .next t)
    (hwrite : (∀ wsrc bdst nwords, i ≠ .w2b wsrc bdst nwords) ∨ t.reply ≠ .response 0) :
    exec i (s.withBytes m) = .next (t.withBytes m) := by
  obtain ⟨-, he⟩ | ⟨-, rfl, he⟩ := (unseen_withBytes m).exec_next h
  · exact he
  · have hw := hwrite.resolve_right fun hne => hne rfl
    rw [he, bodyOf_withBytes hread hw, (unseen_withBytes m).respond]

/-- A W2B that executes: the same answer and words, the same bytes written, every other byte of `m` left. -/
theorem exec_w2b_withBytes {wsrc bdst nwords : Word} {s t : State} (m : Memory Byte)
    (h : exec (.w2b wsrc bdst nwords) s = .next t) (hok : t.reply = .response 0) :
    ∃ m', exec (.w2b wsrc bdst nwords) (s.withBytes m) = .next (t.withBytes m') ∧
      ∀ a, Memory.read a m' =
        if bdst.toNat ≤ a ∧ a < bdst.toNat + 4 * nwords.toNat then t.bm.read a else m.read a := by
  obtain ⟨hne, -⟩ | ⟨-, rfl, he⟩ := (unseen_withBytes m).exec_next h
  · exact absurd hok hne
  · refine ⟨_, he.trans (congrArg Host.Outcome.next ?_), w2bWords_withBytes_read m _ _ _ s⟩
    rw [bodyOf_w2b, ← (unseen_withBytes _).respond, ← w2bWords_withBytes]

/-- Settles O44: W2B that executes writes the same bytes; every other command, and every refusal, leaves `BM` alone. -/
theorem onlyB2wReadsBytes : Obligations.OnlyB2wReadsBytes := by
  intro i s t m hread h
  refine ⟨fun hwrite => exec_withBytes m hread h (.inl hwrite), ?_⟩
  by_cases hwrite : (∀ wsrc bdst nwords, i ≠ .w2b wsrc bdst nwords) ∨ t.reply ≠ .response 0
  · refine ⟨m, exec_withBytes m hread h hwrite, fun a => (if_neg ?_).symm⟩
    rintro ⟨hok, ha⟩
    have hnot := byteWritten_of_not_w2b (hwrite.resolve_right fun hne => hne hok) a
    exact absurd ha (by simp [hnot])
  · push Not at hwrite
    obtain ⟨⟨wsrc, bdst, nwords, rfl⟩, hok⟩ := hwrite
    obtain ⟨m', he, hm'⟩ := exec_w2b_withBytes m h hok
    exact ⟨m', he, fun a => by simp only [hm', hok, byteWritten_w2b, true_and]⟩

end Sys2Proof.Machine
end

section
/-! PROOFS. The hidden registers are not observable (10_state R24, R25, R26): a command that uses them sets them first,
and nothing else reads them. -/

namespace Sys2Proof.Machine

/-- The two states are equal but for the hidden registers. -/
def SameVisible (s u : State) : Prop :=
  ∃ x t, u = s.withHidden x t

theorem State.withHidden_self (s : State) : s.withHidden s.x s.t = s := rfl

theorem SameVisible.refl (s : State) : SameVisible s s := ⟨s.x, s.t, rfl⟩

theorem State.sameVisible_withHidden (x t : Block) (s : State) : SameVisible s (s.withHidden x t) := ⟨x, t, rfl⟩

theorem SameVisible.respond {s u : State} (h : SameVisible s u) (c : BitVec 4) :
    SameVisible (s.respond c) (u.respond c) := by
  obtain ⟨x, t, rfl⟩ := h
  exact ⟨x, t, (unseen_withHidden x t).respond c s⟩

theorem b2wWords_withHidden (x t : Block) (bsrc wdst n : Nat) (s : State) :
    b2wWords bsrc wdst n (s.withHidden x t) = (b2wWords bsrc wdst n s).withHidden x t :=
  forUp_comm (body := b2wCell bsrc wdst) (fun _ _ => rfl) n s

theorem w2bWords_withHidden (x t : Block) (wsrc bdst n : Nat) (s : State) :
    w2bWords wsrc bdst n (s.withHidden x t) = (w2bWords wsrc bdst n s).withHidden x t :=
  forUp_comm (body := w2bCell wsrc bdst) (fun _ _ => rfl) n s

/-- SALSA sets `S` and never reads it. -/
theorem salsaAt_withHidden (x t : Block) (addr : Nat) (s : State) :
    salsaAt addr (s.withHidden x t) = (salsaAt addr s).withHidden (permute (s.peekBlock addr)) t := by
  unfold salsaAt
  rw [(unseen_withHidden x t).peekBlock, ← (unseen_withHidden _ t).writeBlock]
  rfl

/-- A turn of BMIX reads `T`, sets both registers and never reads `S`. -/
theorem mixSlot_withHidden (x : Block) (xaddr yaddr i : Nat) (s : State) :
    mixSlot xaddr yaddr i (s.withHidden x s.t) = mixSlot xaddr yaddr i s := by
  unfold mixSlot
  rw [(unseen_withHidden x s.t).peekBlock]
  rfl

theorem forUp_mixSlot_withHidden (x : Block) (xaddr yaddr n : Nat) (s : State) :
    ∃ x', forUp n (mixSlot xaddr yaddr) (s.withHidden x s.t) =
      (forUp n (mixSlot xaddr yaddr) s).withHidden x' (forUp n (mixSlot xaddr yaddr) s).t := by
  induction n with
  | zero => exact ⟨x, rfl⟩
  | succ n ih =>
    obtain ⟨x', h⟩ := ih
    rw [forUp_succ, forUp_succ, h, mixSlot_withHidden]
    exact ⟨_, (State.withHidden_self _).symm⟩

/-- BMIX sets `T` before its first turn reads it (43_blockmix R161, step 1). -/
theorem loadLast_withHidden (x t : Block) (xaddr r : Nat) (s : State) :
    loadLast xaddr r (s.withHidden x t) = (loadLast xaddr r s).withHidden x (loadLast xaddr r s).t := by
  unfold loadLast
  rw [(unseen_withHidden x t).peekBlock]
  rfl

theorem blockMix_sameVisible (x t : Block) (xaddr yaddr r : Nat) (s : State) :
    SameVisible (blockMix xaddr yaddr r s) (blockMix xaddr yaddr r (s.withHidden x t)) := by
  obtain ⟨x', h⟩ := forUp_mixSlot_withHidden x xaddr yaddr (2 * r) (loadLast xaddr r s)
  unfold blockMix mixPhase
  rw [loadLast_withHidden, h, (unseen_withHidden _ _).deinterleave]
  exact State.sameVisible_withHidden _ _ _

theorem bodyOf_sameVisible (i : Instr) (x t : Block) (s : State) :
    SameVisible (bodyOf i s) (bodyOf i (s.withHidden x t)) := by
  cases i with
  | b2w bsrc wdst nbytes => exact ⟨x, t, b2wWords_withHidden x t _ _ _ s⟩
  | w2b wsrc bdst nwords => exact ⟨x, t, w2bWords_withHidden x t _ _ _ s⟩
  | copy srcPos dstPos len => exact ⟨x, t, (unseen_withHidden x t).copyWords _ _ _ s⟩
  | xor srcPos dstPos len => exact ⟨x, t, (unseen_withHidden x t).xorWords _ _ _ s⟩
  | salsa addr => exact ⟨_, t, salsaAt_withHidden x t _ s⟩
  | bmix xaddr yaddr r => exact blockMix_sameVisible x t _ _ _ s

theorem exec_withHidden {i : Instr} {s u : State} (x t : Block) (h : exec i s = .next u) :
    ∃ v, exec i (s.withHidden x t) = .next v ∧ SameVisible u v := by
  obtain ⟨-, he⟩ | ⟨-, rfl, he⟩ := (unseen_withHidden x t).exec_next h
  · exact ⟨_, he, u.sameVisible_withHidden x t⟩
  · exact ⟨_, he, (bodyOf_sameVisible i x t s).respond okCode⟩

theorem issue_withHidden {cmd : Command} {s u : State} (x t : Block) (h : issue cmd s = .next u) :
    ∃ v, issue cmd (s.withHidden x t) = .next v ∧ SameVisible u v := by
  obtain ⟨herr, he⟩ | ⟨herr, ⟨e, hd⟩, he⟩ | ⟨herr, i, hd, he⟩ := issue_cases cmd s
  all_goals rw [he] at h
  · cases h
    exact ⟨_, issue_locked herr, x, t, rfl⟩
  · cases h
    exact ⟨_, issue_illegal herr hd, x, t, rfl⟩
  · rw [issue_legal (s := s.withHidden x t) herr hd]
    exact exec_withHidden x t h

/-- A Reset gives the hidden registers values of its own (log entry 5); no other move of the host but an `Issue`
touches them. -/
theorem runMove_withHidden {m : HostMove} {s u : State} (x t : Block) (h : runMove m s = .next u) :
    ∃ v, runMove m (s.withHidden x t) = .next v ∧ SameVisible u v := by
  cases m with
  | wrW a v => obtain ⟨ha, rfl⟩ := hostWrW_next.mp h; exact ⟨_, hostWrW_next.mpr ⟨ha, rfl⟩, x, t, rfl⟩
  | rdW a => obtain ⟨ha, rfl⟩ := hostRdW_next.mp h; exact ⟨_, hostRdW_next.mpr ⟨ha, rfl⟩, x, t, rfl⟩
  | wrB a v => obtain ⟨ha, rfl⟩ := hostWrB_next.mp h; exact ⟨_, hostWrB_next.mpr ⟨ha, rfl⟩, x, t, rfl⟩
  | rdB a => obtain ⟨ha, rfl⟩ := hostRdB_next.mp h; exact ⟨_, hostRdB_next.mpr ⟨ha, rfl⟩, x, t, rfl⟩
  | rdCsr n => cases h; exact ⟨_, rfl, x, t, by cases n <;> rfl⟩
  | issue cmd => exact issue_withHidden x t h
  | reset => cases h; exact ⟨_, rfl, .refl _⟩

theorem step_withHidden {s u : State} (x t : Block) (h : step s = .next u) :
    ∃ v, step (s.withHidden x t) = .next v ∧ SameVisible u v := by
  cases hm : s.host with
  | nil =>
    rw [step_of_idle hm] at h
    cases h
    exact ⟨_, step_of_idle (s := s.withHidden x t) hm, x, t, rfl⟩
  | cons m rest =>
    rw [step_of_move hm] at h
    rw [step_of_move (s := s.withHidden x t) hm]
    exact runMove_withHidden x t h

/-- Settles O45: the steps from two states that differ in the hidden registers alone end in two such states. -/
theorem hiddenRegistersUnobservable : Obligations.HiddenRegistersUnobservable := by
  intro s u x t h
  obtain ⟨_, hv, x', t', rfl⟩ := step_withHidden x t h
  exact ⟨x', t', hv⟩

end Sys2Proof.Machine
end

section
/-! PROOFS. What a step does on each move of the host (20_memory R55). -/

namespace Sys2Proof.Machine

/-- A locked block answers a legal word as it answers the command itself (log entry 10). -/
theorem issue_of_decode {cmd : Command} {i : Instr} (hd : decode cmd = .ok i) (s : State) :
    issue cmd s = exec i s := by
  by_cases herr : s.err = 0
  · exact issue_legal herr hd
  · rw [issue_locked herr, exec_locked herr]

/-- Settles O8: the first pending move is the `Issue`, and an `Issue` of a legal word is its command. -/
theorem stepRunsTheIssuedCommand : Obligations.StepRunsTheIssuedCommand := by
  intro s cmd rest i hm hd
  rw [step_of_move hm]
  exact issue_of_decode hd _

/-- Settles O9: the placed word is the first pending move, and taking it off the list gives the state before. -/
theorem placedCommandRunsNext : Obligations.PlacedCommandRunsNext := by
  intro s w i hd
  have hw : BitVec.ofNat 128 (w % 2 ^ 128) = BitVec.ofNat 128 w := by
    apply BitVec.eq_of_toNat_eq
    simp
  exact stepRunsTheIssuedCommand (s.withFetchWord 128 w) _ s.host i rfl (hw ▸ hd)

/-- Settles O49: the move goes on because the cell exists, and a write reaches that cell alone. -/
theorem hostWritesOneCell : Obligations.HostWritesOneCell := by
  intro s rest a
  refine ⟨fun v hm ha => ?_, fun v hm ha => ?_⟩
  · exact ⟨_, (step_of_move hm).trans (hostWrW_next.mpr ⟨ha, rfl⟩), rfl, Memory.read_write_self a v s.w,
      fun b hb => Memory.read_write_ne hb v s.w⟩
  · exact ⟨_, (step_of_move hm).trans (hostWrB_next.mpr ⟨ha, rfl⟩), rfl, Memory.read_write_self a v s.bm,
      fun b hb => Memory.read_write_ne hb v s.bm⟩

/-- Settles O50: the move goes on because the cell exists, and a written cell is read as it stands. -/
theorem hostReadsReturnTheCell : Obligations.HostReadsReturnTheCell := by
  intro s rest a
  refine ⟨fun v hm ha hv => ?_, fun v hm ha hv => ?_⟩
  · have hpeek : ({ s with host := rest } : State).peekW a = v := State.peekW_of_read hv
    exact ⟨_, (step_of_move hm).trans (hostRdW_next.mpr ⟨ha, rfl⟩), by rw [hpeek]; rfl⟩
  · have hpeek : ({ s with host := rest } : State).peekB a = v := State.peekB_of_read hv
    exact ⟨_, (step_of_move hm).trans (hostRdB_next.mpr ⟨ha, rfl⟩), by rw [hpeek]; rfl⟩

/-- Settles O51: CSR numbers 2 to 4 read the bits of `ERRCMD` that hold the operands A, B and C (30_encoding R71). -/
theorem csrReadsStatusRegisters : Obligations.CsrReadsStatusRegisters := by
  intro s rest n hm
  refine ⟨readCsr s n, step_of_move hm, ?_⟩
  cases n with
  | err => rfl
  | errcmd0 => simp [readCsr]
  | errcmd1 => exact Command.a_toNat s.errcmd
  | errcmd2 => exact Command.b_toNat s.errcmd
  | errcmd3 =>
    have hlt := s.errcmd.isLt
    have hc : (readCsr s .errcmd3).toNat = s.errcmd.toNat / 2 ^ 96 % 2 ^ 32 := Command.c_toNat s.errcmd
    simp only [hc]
    omega

/-! A host access to a cell that does not exist stops the model (20_memory R57; log entry 9). -/

theorem hostWrW_outside {a : Nat} {s : State} {v : Word} (h : s.cfg.wmemWords ≤ a) :
    hostWrW a v s = .fault (.hostAddressOutsideMemory a) :=
  if_neg (by omega)

theorem hostRdW_outside {a : Nat} {s : State} (h : s.cfg.wmemWords ≤ a) :
    hostRdW a s = .fault (.hostAddressOutsideMemory a) :=
  if_neg (by omega)

theorem hostWrB_outside {a : Nat} {s : State} {v : Byte} (h : s.cfg.bmemBytes ≤ a) :
    hostWrB a v s = .fault (.hostAddressOutsideMemory a) :=
  if_neg (by omega)

theorem hostRdB_outside {a : Nat} {s : State} (h : s.cfg.bmemBytes ≤ a) :
    hostRdB a s = .fault (.hostAddressOutsideMemory a) :=
  if_neg (by omega)

/-- Settles O52: the step is the access, and each of the four accesses stops outside its memory. -/
theorem hostAddressOutsideMemoryStops : Obligations.HostAddressOutsideMemoryStops := by
  intro s rest a
  refine ⟨?_, ?_⟩
  · rintro (hm | ⟨v, hm⟩) ha <;> rw [step_of_move hm]
    · exact hostRdW_outside ha
    · exact hostWrW_outside ha
  · rintro (hm | ⟨v, hm⟩) ha <;> rw [step_of_move hm]
    · exact hostRdB_outside ha
    · exact hostWrB_outside ha

/-! Every command and every `Issue` goes on (70_reset_and_hazards R245). -/

theorem exec_goes_on (i : Instr) (s : State) : ∃ t, exec i s = .next t := by
  obtain ⟨-, he⟩ | ⟨-, f, -, he⟩ | ⟨-, -, he⟩ := exec_cases i s
  all_goals exact ⟨_, he⟩

theorem issue_goes_on (cmd : Command) (s : State) : ∃ t, issue cmd s = .next t := by
  obtain ⟨-, he⟩ | ⟨-, -, he⟩ | ⟨-, i, -, he⟩ := issue_cases cmd s
  · exact ⟨_, he⟩
  · exact ⟨_, he⟩
  · exact he ▸ exec_goes_on i s

/-- Settles O41: an idle step goes on, and of the moves of the host only the four accesses can stop, each exactly when
its cell does not exist. -/
theorem stepStopsOnlyOutsideMemory : Obligations.StepStopsOnlyOutsideMemory := by
  intro s
  cases hm : s.host with
  | nil => exact .inl ⟨s, step_of_idle hm⟩
  | cons m rest =>
    have hstep := step_of_move hm
    have hstops := hostAddressOutsideMemoryStops s rest
    cases m with
    | wrW a v =>
      obtain ha | ha := Nat.lt_or_ge a s.cfg.wmemWords
      · exact .inl ⟨_, hstep.trans (hostWrW_next.mpr ⟨ha, rfl⟩)⟩
      · exact .inr ⟨a, rest, (hstops a).1 (.inr ⟨v, hm⟩) ha, .inl ⟨.inr ⟨v, rfl⟩, ha⟩⟩
    | rdW a =>
      obtain ha | ha := Nat.lt_or_ge a s.cfg.wmemWords
      · exact .inl ⟨_, hstep.trans (hostRdW_next.mpr ⟨ha, rfl⟩)⟩
      · exact .inr ⟨a, rest, (hstops a).1 (.inl hm) ha, .inl ⟨.inl rfl, ha⟩⟩
    | wrB a v =>
      obtain ha | ha := Nat.lt_or_ge a s.cfg.bmemBytes
      · exact .inl ⟨_, hstep.trans (hostWrB_next.mpr ⟨ha, rfl⟩)⟩
      · exact .inr ⟨a, rest, (hstops a).2 (.inr ⟨v, hm⟩) ha, .inr ⟨.inr ⟨v, rfl⟩, ha⟩⟩
    | rdB a =>
      obtain ha | ha := Nat.lt_or_ge a s.cfg.bmemBytes
      · exact .inl ⟨_, hstep.trans (hostRdB_next.mpr ⟨ha, rfl⟩)⟩
      · exact .inr ⟨a, rest, (hstops a).2 (.inl hm) ha, .inr ⟨.inl rfl, ha⟩⟩
    | rdCsr n => exact .inl ⟨_, hstep⟩
    | issue cmd => exact .inl (hstep ▸ issue_goes_on cmd _)
    | reset => exact .inl ⟨_, hstep⟩

end Sys2Proof.Machine
end

section
/-! PROOFS. The refusals of a command in the terms of the statements (60_exceptions R202, R204, R206). -/

namespace Sys2Proof.Machine

theorem State.raiseFault_eq_faulted (s : State) (f : FaultCode) (cmd : Command) :
    s.raiseFault f cmd = faulted s f.code.toNat cmd := by
  cases f <;> rfl

theorem exec_answeredLocked {s : State} (h : s.err ≠ 0) (i : Instr) : exec i s = .next (answeredLocked s) :=
  exec_locked h

theorem exec_of_breaksLength {i : Instr} {s : State} (h : s.err = 0) (hlen : breaksLength i = true) :
    exec i s = .next (faulted s 2 (encode i)) := by
  have hc : checkInstr s.cfg i = some .length := by simp [checkInstr_eq, hlen]
  rw [exec_fault h hc, State.raiseFault_eq_faulted]
  rfl

theorem exec_of_outOfRange {i : Instr} {s : State} (h : s.err = 0) (hlen : breaksLength i = false)
    (hparam : breaksParam i = false) (hrange : outOfRange s.cfg i = true) :
    exec i s = .next (faulted s 4 (encode i)) := by
  have hc : checkInstr s.cfg i = some .range := by simp [checkInstr_eq, hlen, hparam, hrange]
  rw [exec_fault h hc, State.raiseFault_eq_faulted]
  rfl

end Sys2Proof.Machine
end

section
/-! PROOFS. The codec commands B2W and W2B: result, frame and refusals (40_wordcodec R101, R102). -/

namespace Sys2Proof.Machine

/-! A written cell is read as it stands, whatever the counter. -/

theorem State.peekW_tick_of_read {s : State} {a : Nat} {v : Word} (h : s.w.read a = some v) (n : Nat) :
    (s.tick n).peekW a = v :=
  State.peekW_of_read h

theorem State.peekB_tick_of_read {s : State} {a : Nat} {v : Byte} (h : s.bm.read a = some v) (n : Nat) :
    (s.tick n).peekB a = v :=
  State.peekB_of_read h

/-- Settles O21: the loop is as `b2wWords_spec` says, and a written source byte is read as it stands. -/
theorem b2wMovesBytesIntoWords : Obligations.B2wMovesBytesIntoWords := by
  intro s bsrc wdst nbytes
  refine ⟨fun herr hlen hsrc hdst => ?_, fun herr => exec_answeredLocked herr _,
    fun herr hlen => exec_of_breaksLength herr (by simp [breaksLength, hlen]),
    fun herr hlen hout => exec_of_outOfRange herr (by simp [breaksLength, hlen]) rfl
      (by simpa [outOfRange] using hout)⟩
  obtain ⟨hframe, hother, hcell⟩ := b2wWords_spec bsrc.toNat wdst.toNat (nbytes.toNat / 4) s
  refine ⟨_, exec_ok herr ((checkB2w_none s.cfg).mpr ⟨hlen, hsrc, hdst⟩), ?_, hother,
    fun j hj b0 b1 b2 b3 h0 h1 h2 h3 => ⟨_, hcell j hj, ?_⟩⟩
  · rw [bodyOf_b2w, hframe]
    rfl
  · rw [State.peekB_tick_of_read h0, State.peekB_tick_of_read h1, State.peekB_tick_of_read h2,
      State.peekB_tick_of_read h3, wordOfBytes_toNat]
    omega

/-- Settles O22: the loop is as `w2bWords_spec` says, and a written source word is read as it stands. -/
theorem w2bMovesWordsIntoBytes : Obligations.W2bMovesWordsIntoBytes := by
  intro s wsrc bdst nwords
  refine ⟨fun herr hsrc hdst => ?_, fun herr => exec_answeredLocked herr _,
    fun herr hout => exec_of_outOfRange herr rfl rfl (by simpa [outOfRange] using hout)⟩
  obtain ⟨hframe, hother, hcell⟩ := w2bWords_spec wsrc.toNat bdst.toNat nwords.toNat s
  refine ⟨_, exec_ok herr ((checkW2b_none s.cfg).mpr ⟨hsrc, hdst⟩), ?_, hother,
    fun j hj k hk v hv => ⟨_, hcell j hj k hk, ?_⟩⟩
  · rw [bodyOf_w2b, hframe]
    rfl
  · rw [State.peekW_tick_of_read hv, byteOfWord_toNat]

end Sys2Proof.Machine
end

section
/-! PROOFS. A command that executes writes the cells of its "Writes" column and no other (49_command_set_laws R170), so
no command unwrites a cell. -/

namespace Sys2Proof.Machine

/-- Either the command is refused, which leaves both memories, or its checks pass and its body runs
(60_exceptions R207). -/
theorem exec_refused_or_executed {i : Instr} {s t : State} (h : exec i s = .next t) :
    (t.w = s.w ∧ t.bm = s.bm ∧ t.reply ≠ .response 0) ∨
    (checkInstr s.cfg i = none ∧ t = (bodyOf i s).respond okCode) := by
  obtain ⟨-, he⟩ | ⟨-, f, -, he⟩ | ⟨-, hc, he⟩ := exec_cases i s
  all_goals
    rw [he] at h
    cases h
  · exact .inl ⟨rfl, rfl, by simp [lockedCode]⟩
  · refine .inl ⟨rfl, rfl, ?_⟩
    rw [State.raiseFault_reply]
    cases f <;> decide
  · exact .inr ⟨hc, rfl⟩

/-- Against the old memory, the new one has the cells of `p` written and every other cell as it was. -/
structure WritesExactly {α : Type} (p : Nat → Bool) (old new : Memory α) : Prop where
  written : ∀ a, p a = true → (new.read a).isSome
  frame : ∀ a, p a = false → new.read a = old.read a

theorem WritesExactly.isSome_of_isSome {α : Type} {p : Nat → Bool} {old new : Memory α} (h : WritesExactly p old new)
    {a : Nat} (ha : (old.read a).isSome) : (new.read a).isSome := by
  cases hp : p a with
  | false => rwa [h.frame a hp]
  | true => exact h.written a hp

/-- The cells of one region, each at its offset. -/
theorem WritesExactly.of_region {α : Type} {dst n : Nat} {old new : Memory α}
    (hout : ∀ a, (a < dst ∨ dst + n ≤ a) → new.read a = old.read a)
    (hin : ∀ i < n, (new.read (dst + i)).isSome) :
    WritesExactly (fun a => decide (dst ≤ a ∧ a < dst + n)) old new := by
  refine ⟨fun a ha => ?_, fun a ha => hout a ?_⟩
  · obtain ⟨hlow, hhigh⟩ := of_decide_eq_true ha
    obtain ⟨i, rfl⟩ := Nat.exists_eq_add_of_le hlow
    exact hin i (by omega)
  · have := of_decide_eq_false ha
    omega

/-- A word of a BMIX region lies in one of its `2r` blocks (43_blockmix R163). -/
theorem exists_block_of_mem_chunk {base r a : Nat} (h : base ≤ a ∧ a < base + 32 * r) :
    ∃ i < 2 * r, ∃ k : Fin 16, a = base + 16 * i + k.val :=
  ⟨(a - base) / 16, by omega, ⟨(a - base) % 16, by omega⟩, by simp only; omega⟩

/-- BMIX writes every slot of the Y region, and the X region by its even and odd halves. -/
theorem blockMix_writesWords {xaddr yaddr r : Nat} (hr : 1 ≤ r)
    (hd : xaddr + 32 * r ≤ yaddr ∨ yaddr + 32 * r ≤ xaddr) (s : State) :
    WritesExactly
      (fun a => decide ((xaddr ≤ a ∧ a < xaddr + 32 * r) ∨ (yaddr ≤ a ∧ a < yaddr + 32 * r)))
      s.w (blockMix xaddr yaddr r s).w := by
  obtain ⟨w, x, heq, hout, hslot, heven, hodd⟩ := blockMix_spec hr hd s
  rw [heq]
  refine ⟨fun a ha => ?_, fun a ha => ?_⟩
  · obtain hx | hy := of_decide_eq_true ha
    · obtain ⟨i, hi, k, rfl⟩ := exists_block_of_mem_chunk hx
      obtain hlt | hge := Nat.lt_or_ge i r
      · exact Option.isSome_of_eq_some (heven i hlt k)
      · obtain ⟨j, rfl⟩ := Nat.exists_eq_add_of_le hge
        exact Option.isSome_of_eq_some (hodd j (by omega) k)
    · obtain ⟨i, hi, k, rfl⟩ := exists_block_of_mem_chunk hy
      exact Option.isSome_of_eq_some (hslot i hi k)
  · have := of_decide_eq_false ha
    exact hout a (by omega) (by omega)

theorem bodyOf_writesWords {i : Instr} {s : State} (hc : checkInstr s.cfg i = none) :
    WritesExactly (wordWritten i) s.w (bodyOf i s).w := by
  cases i with
  | b2w bsrc wdst nbytes =>
    obtain ⟨-, hout, hin⟩ := b2wWords_spec bsrc.toNat wdst.toNat (nbytes.toNat / 4) s
    exact .of_region hout fun j hj => Option.isSome_of_eq_some (hin j hj)
  | w2b wsrc bdst nwords =>
    rw [bodyOf_w2b, (w2bWords_spec _ _ _ s).1]
    exact ⟨fun _ ha => absurd ha Bool.false_ne_true, fun _ _ => rfl⟩
  | copy srcPos dstPos len =>
    obtain ⟨-, -, hover⟩ := (checkMove_none s.cfg).mp hc
    exact .of_region (copyWords_frame _ _ _ s).2 fun j hj => Option.isSome_of_eq_some (copyWords_read hover s j hj)
  | xor srcPos dstPos len =>
    obtain ⟨-, -, hover⟩ := (checkMove_none s.cfg).mp hc
    exact .of_region (xorWords_frame _ _ _ s).2 fun j hj => Option.isSome_of_eq_some (xorWords_read hover s j hj)
  | salsa addr =>
    obtain ⟨-, hout, hin⟩ := salsaAt_spec addr.toNat s
    exact .of_region hout fun k hk => Option.isSome_of_eq_some (hin ⟨k, hk⟩)
  | bmix xaddr yaddr r =>
    obtain ⟨hr, -, -, hmeet⟩ := (checkBmix_none s.cfg).mp hc
    exact blockMix_writesWords hr (by omega) s

theorem bodyOf_writesBytes (i : Instr) (s : State) : WritesExactly (byteWritten i) s.bm (bodyOf i s).bm := by
  by_cases hwrite : ∃ wsrc bdst nwords, i = .w2b wsrc bdst nwords
  · obtain ⟨wsrc, bdst, nwords, rfl⟩ := hwrite
    obtain ⟨-, hout, hin⟩ := w2bWords_spec wsrc.toNat bdst.toNat nwords.toNat s
    refine .of_region hout fun b hb => ?_
    have hcell := hin (b / 4) (by omega) (b % 4) (by omega)
    rw [Nat.add_assoc, Nat.div_add_mod] at hcell
    exact Option.isSome_of_eq_some hcell
  · push Not at hwrite
    rw [bodyOf_bm hwrite]
    exact ⟨fun a ha => by simp [byteWritten_of_not_w2b hwrite] at ha, fun _ _ => rfl⟩

/-- Settles O47: a refusal leaves both memories, and a command that executes writes exactly its destination. -/
theorem commandsLeaveCellsWritten : Obligations.CommandsLeaveCellsWritten := by
  intro i s t a h
  obtain ⟨hw, hbm, hreply⟩ | ⟨hc, rfl⟩ := exec_refused_or_executed h
  · rw [hw, hbm]
    exact ⟨id, id, fun hok => absurd hok hreply⟩
  · have hwords := bodyOf_writesWords hc
    have hbytes := bodyOf_writesBytes i s
    exact ⟨hwords.isSome_of_isSome, hbytes.isSome_of_isSome, fun _ => ⟨hwords.written a, hbytes.written a⟩⟩

end Sys2Proof.Machine
end

section
/-! PROOFS. The five fields of a command word and the words they decide: a word is its fields, and it decodes exactly to
the command it is the encoding of (30_encoding R71, R76 to R78, R83). -/

namespace Sys2Proof

/-- The fields of the word that R72's arithmetic puts together. -/
theorem Command.fields_of_toNat {cmd : Command} {OP : BitVec 8} {RSV : BitVec 24} {A B C : Word}
    (h : cmd.toNat = OP.toNat + RSV.toNat * 2 ^ 8 + A.toNat * 2 ^ 32 + B.toNat * 2 ^ 64 + C.toNat * 2 ^ 96) :
    cmd.op = OP ∧ cmd.rsv = RSV ∧ cmd.a = A ∧ cmd.b = B ∧ cmd.c = C := by
  have h0 := OP.isLt; have h1 := RSV.isLt; have h2 := A.isLt; have h3 := B.isLt; have h4 := C.isLt
  simp only [← BitVec.toNat_inj, Command.op_toNat, Command.rsv_toNat, Command.a_toNat, Command.b_toNat,
    Command.c_toNat, h]
  omega

/-- The fields lie side by side and fill the word. -/
theorem Command.toNat_eq_fields (cmd : Command) :
    cmd.toNat = cmd.op.toNat + cmd.rsv.toNat * 2 ^ 8 + cmd.a.toNat * 2 ^ 32 + cmd.b.toNat * 2 ^ 64 +
      cmd.c.toNat * 2 ^ 96 := by
  have hc := cmd.isLt
  rw [Command.op_toNat, Command.rsv_toNat, Command.a_toNat, Command.b_toNat, Command.c_toNat]
  omega

theorem Command.eq_iff_fields {x y : Command} :
    x = y ↔ x.op = y.op ∧ x.rsv = y.rsv ∧ x.a = y.a ∧ x.b = y.b ∧ x.c = y.c := by
  refine ⟨by rintro rfl; simp, fun ⟨hop, hrsv, ha, hb, hc⟩ => BitVec.eq_of_toNat_eq ?_⟩
  rw [x.toNat_eq_fields, y.toNat_eq_fields, hop, hrsv, ha, hb, hc]

/-- The words of an opcode with RSV zero are those packed from it and some operands. -/
theorem Command.exists_pack_eq_iff {cmd : Command} {op : BitVec 8} :
    (∃ a b c, Command.pack op a b c = cmd) ↔ cmd.op = op ∧ cmd.rsv = 0 := by
  constructor
  · rintro ⟨a, b, c, rfl⟩
    exact ⟨Command.pack_op .., Command.pack_rsv ..⟩
  · rintro ⟨rfl, hrsv⟩
    exact ⟨cmd.a, cmd.b, cmd.c, Command.pack_fields hrsv⟩

/-- R76 to R78 on the fields are the same condition as `Command.legal` on the number. -/
theorem Command.legal_iff_fields {cmd : Command} :
    cmd.legal ↔ ¬(cmd.op = 0x00 ∨ 0x07 ≤ cmd.op) ∧ cmd.rsv = 0 ∧ ¬(cmd.op = 0x05 ∧ (cmd.b ≠ 0 ∨ cmd.c ≠ 0)) := by
  have hc := cmd.isLt
  simp only [Command.legal, ne_eq, BitVec.ofNat_eq_ofNat, BitVec.le_def, ← BitVec.toNat_inj, BitVec.toNat_ofNat,
    Command.op_toNat, Command.rsv_toNat, Command.b_toNat, Command.c_toNat]
  omega

/-- A word that decodes passes the three `Illegal` lines of R83. -/
theorem legal_of_decode {cmd : Command} {i : Instr} (h : decode cmd = .ok i) : cmd.legal := by
  rw [Command.legal_iff_fields]
  rw [decode] at h
  by_cases hop : cmd.op = 0x00 ∨ 0x07 ≤ cmd.op
  · simp only [if_pos hop, reduceCtorEq] at h
  by_cases hrsv : cmd.rsv = 0
  · by_cases hunused : cmd.op = 0x05 ∧ (cmd.b ≠ 0 ∨ cmd.c ≠ 0)
    · simp only [if_neg hop, if_neg (not_not_intro hrsv), if_pos hunused, reduceCtorEq] at h
    · exact ⟨hop, hrsv, hunused⟩
  · simp only [if_neg hop, if_pos hrsv, reduceCtorEq] at h

/-- A legal word is the encoding of the command its opcode names, with its fields as operands. -/
theorem exists_encode_eq_of_legal {cmd : Command} (h : cmd.legal) : ∃ i, encode i = cmd := by
  obtain ⟨hop, hrsv, hunused⟩ := Command.legal_iff_fields.mp h
  have hpack := Command.pack_fields hrsv
  have hcases : cmd.op = 1 ∨ cmd.op = 2 ∨ cmd.op = 3 ∨ cmd.op = 4 ∨ cmd.op = 5 ∨ cmd.op = 6 := by bv_omega
  obtain h1 | h2 | h3 | h4 | h5 | h6 := hcases
  · exact ⟨.b2w cmd.a cmd.b cmd.c, by rwa [h1] at hpack⟩
  · exact ⟨.w2b cmd.a cmd.b cmd.c, by rwa [h2] at hpack⟩
  · exact ⟨.copy cmd.a cmd.b cmd.c, by rwa [h3] at hpack⟩
  · exact ⟨.xor cmd.a cmd.b cmd.c, by rwa [h4] at hpack⟩
  · obtain ⟨hb, hc⟩ : cmd.b = 0 ∧ cmd.c = 0 := by simpa [h5] using hunused
    exact ⟨.salsa cmd.a, by simpa only [encode, h5, hb, hc] using hpack⟩
  · exact ⟨.bmix cmd.a cmd.b cmd.c, by rwa [h6] at hpack⟩

theorem encode_of_decode {cmd : Command} {i : Instr} (h : decode cmd = .ok i) : encode i = cmd := by
  obtain ⟨j, rfl⟩ := exists_encode_eq_of_legal (legal_of_decode h)
  rw [decode_encode, Except.ok.injEq] at h
  rw [h]

/-- A word decodes to the command whose word it is, and to no other. -/
theorem decode_eq_ok_iff {cmd : Command} {i : Instr} : decode cmd = .ok i ↔ encode i = cmd :=
  ⟨encode_of_decode, fun h => h ▸ decode_encode i⟩

/-- Settles O1: each command's word has its opcode, RSV zero and its operands, and the decoder reads them back. -/
theorem decodeOfEncode : Obligations.DecodeOfEncode :=
  decode_encode

/-- Settles O2: a word that decodes is legal, so it is the encoding of some command, which the decoder reads back. -/
theorem encodeOfDecode : Obligations.EncodeOfDecode :=
  fun _ _ => encode_of_decode

/-- Settles O3: the decoder reads back the fields the word was put together from. -/
theorem decodeProcedure : Obligations.DecodeProcedure := by
  intro OP RSV A B C
  have h0 := OP.isLt; have h1 := RSV.isLt; have h2 := A.isLt; have h3 := B.isLt; have h4 := C.isLt
  obtain ⟨hop, hrsv, ha, hb, hc⟩ := Command.fields_of_toNat (OP := OP) (RSV := RSV) (A := A) (B := B) (C := C)
    (BitVec.toNat_ofNat .. |>.trans (Nat.mod_eq_of_lt (by omega)))
  rw [decode, hop, hrsv, ha, hb, hc]
  rfl

/-- Settles O4: a legal word is the encoding of a command, and a word that decodes passes R76 to R78. -/
theorem wordDecodesExactlyWhenLegal : Obligations.WordDecodesExactlyWhenLegal := by
  refine fun cmd => ⟨fun h => ?_, fun ⟨_, hd⟩ => legal_of_decode hd⟩
  obtain ⟨i, hi⟩ := exists_encode_eq_of_legal h
  exact ⟨i, decode_eq_ok_iff.mpr hi⟩

/-- Settles O6: each word written out is the encoding of its command. -/
theorem wordsWrittenOutDecode : Obligations.WordsWrittenOutDecode :=
  ⟨decode_encode (.b2w 100 20 16), decode_encode (.w2b 8 32 2), decode_encode (.copy 16 64 16),
    decode_encode (.xor 0 20 4), decode_encode (.salsa 240), decode_encode (.bmix 8 100 2)⟩

end Sys2Proof
end

section
/-! PROOFS. The masks of the opcode table select whole fields of the word (30_encoding R73, R77, R78). -/

namespace Sys2Proof

theorem Command.op_and (x y : Command) : (x &&& y).op = x.op &&& y.op := BitVec.extractLsb'_and
theorem Command.rsv_and (x y : Command) : (x &&& y).rsv = x.rsv &&& y.rsv := BitVec.extractLsb'_and
theorem Command.a_and (x y : Command) : (x &&& y).a = x.a &&& y.a := BitVec.extractLsb'_and
theorem Command.b_and (x y : Command) : (x &&& y).b = x.b &&& y.b := BitVec.extractLsb'_and
theorem Command.c_and (x y : Command) : (x &&& y).c = x.c &&& y.c := BitVec.extractLsb'_and

/-- Agreeing with an opcode under a mask, field by field. -/
theorem Command.and_eq_pack_iff {cmd mask : Command} {op : BitVec 8} :
    cmd &&& mask = .pack op 0 0 0 ↔ cmd.op &&& mask.op = op ∧ cmd.rsv &&& mask.rsv = 0 ∧ cmd.a &&& mask.a = 0 ∧
      cmd.b &&& mask.b = 0 ∧ cmd.c &&& mask.c = 0 := by
  rw [Command.eq_iff_fields, Command.op_and, Command.rsv_and, Command.a_and, Command.b_and, Command.c_and,
    Command.pack_op, Command.pack_rsv, Command.pack_a, Command.pack_b, Command.pack_c]

/-- The mask of the rows with three operands covers OP and RSV. -/
theorem Command.and_maskOpRsv_iff {cmd : Command} {op : BitVec 8} :
    cmd &&& 0x000000000000000000000000FFFFFFFF = .pack op 0 0 0 ↔ cmd.op = op ∧ cmd.rsv = 0 := by
  obtain ⟨hop, hrsv, ha, hb, hc⟩ := Command.fields_of_toNat (cmd := 0x000000000000000000000000FFFFFFFF)
    (OP := .allOnes 8) (RSV := .allOnes 24) (A := 0) (B := 0) (C := 0) rfl
  rw [Command.and_eq_pack_iff, hop, hrsv, ha, hb, hc]
  simp only [BitVec.ofNat_eq_ofNat, BitVec.and_allOnes, BitVec.and_zero, and_true]

/-- The mask of SALSA's row covers every field but A. -/
theorem Command.and_maskAllButA_iff {cmd : Command} {op : BitVec 8} :
    cmd &&& 0xFFFFFFFFFFFFFFFF00000000FFFFFFFF = .pack op 0 0 0 ↔
      cmd.op = op ∧ cmd.rsv = 0 ∧ cmd.b = 0 ∧ cmd.c = 0 := by
  obtain ⟨hop, hrsv, ha, hb, hc⟩ := Command.fields_of_toNat (cmd := 0xFFFFFFFFFFFFFFFF00000000FFFFFFFF)
    (OP := .allOnes 8) (RSV := .allOnes 24) (A := 0) (B := .allOnes 32) (C := .allOnes 32) rfl
  rw [Command.and_eq_pack_iff, hop, hrsv, ha, hb, hc]
  simp only [BitVec.ofNat_eq_ofNat, BitVec.and_allOnes, BitVec.and_zero, true_and]

/-- A row with three operands: `mk` is its command, `op` its opcode and so its match. -/
theorem maskOpRsv_iff_decode {cmd : Command} {op : BitVec 8} {mk : Word → Word → Word → Instr}
    (hmk : ∀ a b c, encode (mk a b c) = .pack op a b c) :
    cmd &&& 0x000000000000000000000000FFFFFFFF = .pack op 0 0 0 ↔ ∃ a b c, decode cmd = .ok (mk a b c) := by
  simp only [decode_eq_ok_iff, hmk, Command.exists_pack_eq_iff, Command.and_maskOpRsv_iff]

theorem maskAllButA_iff_decode_salsa {cmd : Command} :
    cmd &&& 0xFFFFFFFFFFFFFFFF00000000FFFFFFFF = .pack 0x05 0 0 0 ↔ ∃ a, decode cmd = .ok (.salsa a) := by
  simp only [decode_eq_ok_iff, encode, Command.and_maskAllButA_iff]
  constructor
  · rintro ⟨hop, hrsv, hb, hc⟩
    exact ⟨cmd.a, by simpa only [hop, hb, hc] using Command.pack_fields hrsv⟩
  · rintro ⟨a, rfl⟩
    exact ⟨Command.pack_op .., Command.pack_rsv .., Command.pack_b .., Command.pack_c ..⟩

/-- Settles O5: a row's mask covers its fixed fields, and a word decodes to the command it is the encoding of. -/
theorem opcodeTableRowsDecode : Obligations.OpcodeTableRowsDecode := fun _ =>
  ⟨maskOpRsv_iff_decode (op := 0x01) fun _ _ _ => rfl, maskOpRsv_iff_decode (op := 0x02) fun _ _ _ => rfl,
    maskOpRsv_iff_decode (op := 0x03) fun _ _ _ => rfl, maskOpRsv_iff_decode (op := 0x04) fun _ _ _ => rfl,
    maskAllButA_iff_decode_salsa, maskOpRsv_iff_decode (op := 0x06) fun _ _ _ => rfl⟩

end Sys2Proof
end

section
/-! PROOFS. The assembler's two directions (30_encoding R81): every well-formed line is the line of some command, so the
second direction follows from the first. -/

namespace Sys2Proof

theorem AsmLine.wellFormed_iff {l : AsmLine} :
    l.wellFormed = true ↔ l.operands.length = l.mnemonic.arity ∧ ∀ n ∈ l.operands, n < 2 ^ 32 := by
  simp [AsmLine.wellFormed]

theorem Instr.asm_wellFormed (i : Instr) : i.asm.wellFormed = true := by
  rw [AsmLine.wellFormed_iff]
  refine ⟨by cases i <;> rfl, ?_⟩
  cases i <;> simp [Instr.asm] <;> omega

theorem assemble_asm (i : Instr) : assemble i.asm = some i := by
  rw [assemble, if_pos i.asm_wellFormed]
  cases i <;> simp [Instr.asm]

/-- Numbers below 2^32 are the values of words. -/
theorem exists_words_of_lt {ns : List Nat} (h : ∀ n ∈ ns, n < 2 ^ 32) : ∃ ws : List Word, ws.map BitVec.toNat = ns := by
  rw [← Set.mem_range, Set.range_list_map]
  exact fun n hn => ⟨.ofNat 32 n, (BitVec.toNat_ofNat ..).trans (Nat.mod_eq_of_lt (h n hn))⟩

theorem exists_asm_eq_of_wellFormed {l : AsmLine} (h : l.wellFormed = true) : ∃ i : Instr, i.asm = l := by
  obtain ⟨m, ns⟩ := l
  obtain ⟨hlen, hlt⟩ := AsmLine.wellFormed_iff.mp h
  obtain ⟨ws, rfl⟩ := exists_words_of_lt hlt
  have hargs : ws.length = m.arity := List.length_map .. ▸ hlen
  cases m with
  | b2w => obtain ⟨a, b, c, rfl⟩ := List.length_eq_three.mp hargs; exact ⟨.b2w a b c, rfl⟩
  | w2b => obtain ⟨a, b, c, rfl⟩ := List.length_eq_three.mp hargs; exact ⟨.w2b a b c, rfl⟩
  | copy => obtain ⟨a, b, c, rfl⟩ := List.length_eq_three.mp hargs; exact ⟨.copy a b c, rfl⟩
  | xor => obtain ⟨a, b, c, rfl⟩ := List.length_eq_three.mp hargs; exact ⟨.xor a b c, rfl⟩
  | salsa => obtain ⟨a, rfl⟩ := List.length_eq_one_iff.mp hargs; exact ⟨.salsa a, rfl⟩
  | bmix => obtain ⟨a, b, c, rfl⟩ := List.length_eq_three.mp hargs; exact ⟨.bmix a b c, rfl⟩

/-- Settles O7: a command's line assembles to it, and every well-formed line is such a line. -/
theorem assemblerRoundTrip : Obligations.AssemblerRoundTrip := by
  refine ⟨fun i => ⟨i.asm_wellFormed, assemble_asm i⟩, fun l hl => ?_⟩
  obtain ⟨i, rfl⟩ := exists_asm_eq_of_wellFormed hl
  exact ⟨i, assemble_asm i, rfl⟩

end Sys2Proof
end

section
/-! PROOFS. The codec's round trip (40_wordcodec R103). A run of bytes and the run of words made of it determine each
other; B2W leaves the words of its source bytes and W2B the bytes of its source words. -/

namespace Sys2Proof.Machine

/-- Word `j` of a run of bytes, four bytes to a word (40_wordcodec R101). -/
def joinBytes (bs : Nat → Byte) (j : Nat) : Word :=
  wordOfBytes (bs (4 * j)) (bs (4 * j + 1)) (bs (4 * j + 2)) (bs (4 * j + 3))

/-- Byte `i` of a run of words, four bytes to a word (40_wordcodec R102). -/
def splitWords (vs : Nat → Word) (i : Nat) : Byte :=
  byteOfWord (vs (i / 4)) (i % 4)

theorem splitWords_mul_add (vs : Nat → Word) (j : Nat) {k : Nat} (hk : k < 4) :
    splitWords vs (4 * j + k) = byteOfWord (vs j) k := by
  rw [splitWords, (by omega : (4 * j + k) / 4 = j), (by omega : (4 * j + k) % 4 = k)]

theorem joinBytes_splitWords (vs : Nat → Word) : joinBytes (splitWords vs) = vs := by
  funext j
  have h0 : splitWords vs (4 * j) = byteOfWord (vs j) 0 := splitWords_mul_add vs j (k := 0) (by decide)
  rw [joinBytes, h0, splitWords_mul_add vs j (by decide), splitWords_mul_add vs j (by decide),
    splitWords_mul_add vs j (by decide), wordOfBytes_byteOfWord]

theorem splitWords_joinBytes (bs : Nat → Byte) : splitWords (joinBytes bs) = bs := by
  funext i
  obtain ⟨j, k, hk, rfl⟩ : ∃ j k, k < 4 ∧ i = 4 * j + k := ⟨i / 4, i % 4, by omega, by omega⟩
  obtain ⟨h0, h1, h2, h3⟩ := byteOfWord_wordOfBytes (bs (4 * j)) (bs (4 * j + 1)) (bs (4 * j + 2)) (bs (4 * j + 3))
  rw [splitWords_mul_add _ j hk, joinBytes]
  interval_cases k
  · exact h0
  · exact h1
  · exact h2
  · exact h3

/-- `n` bytes of `BM` from `a` have all been written and are `bs 0, bs 1, ...`; `State.holds` for `BM`. -/
abbrev State.holdsBytes (s : State) (a n : Nat) (bs : Nat → Byte) : Prop :=
  ∀ i < n, s.bm.read (a + i) = some (bs i)

theorem State.exists_holds {s : State} {a n : Nat} (h : ∀ j < n, (s.w.read (a + j)).isSome) :
    ∃ vs, s.holds a n vs := by
  choose! vs hvs using fun j hj => Option.isSome_iff_exists.mp (h j hj)
  exact ⟨vs, hvs⟩

theorem State.exists_holdsBytes {s : State} {a n : Nat} (h : ∀ i < n, (s.bm.read (a + i)).isSome) :
    ∃ bs, s.holdsBytes a n bs := by
  choose! bs hbs using fun i hi => Option.isSome_iff_exists.mp (h i hi)
  exact ⟨bs, hbs⟩

theorem b2wWords_holds {bsrc n : Nat} {bs : Nat → Byte} {s : State} (hbs : s.holdsBytes bsrc (4 * n) bs)
    (wdst : Nat) : (b2wWords bsrc wdst n s).holds wdst n (joinBytes bs) := by
  intro j hj
  obtain ⟨-, -, hcell⟩ := b2wWords_spec bsrc wdst n s
  have hread (k : Nat) (hk : k < 4) : s.bm.read (bsrc + 4 * j + k) = some (bs (4 * j + k)) := by
    rw [Nat.add_assoc]
    exact hbs _ (by omega)
  rw [hcell j hj, State.peekB_tick_of_read (hbs (4 * j) (by omega)), State.peekB_tick_of_read (hread 1 (by decide)),
    State.peekB_tick_of_read (hread 2 (by decide)), State.peekB_tick_of_read (hread 3 (by decide))]
  rfl

theorem w2bWords_holdsBytes {wsrc n : Nat} {vs : Nat → Word} {s : State} (hvs : s.holds wsrc n vs) (bdst : Nat) :
    (w2bWords wsrc bdst n s).holdsBytes bdst (4 * n) (splitWords vs) := by
  intro i hi
  obtain ⟨-, -, hcell⟩ := w2bWords_spec wsrc bdst n s
  have hj : i / 4 < n := by omega
  have h := hcell (i / 4) hj (i % 4) (by omega)
  rwa [Nat.add_assoc, Nat.div_add_mod, State.peekW_tick_of_read (hvs _ hj)] at h

/-- B2W on written bytes with its checks passed: what its destination holds, and that the block stays unfaulted. -/
theorem exec_b2w_holds {s : State} {bsrc wdst nbytes nwords : Word} {bs : Nat → Byte} (herr : s.err = 0)
    (hlen : nbytes.toNat = 4 * nwords.toNat) (hsrc : bsrc.toNat + nbytes.toNat ≤ s.cfg.bmemBytes)
    (hdst : wdst.toNat + nwords.toNat ≤ s.cfg.wmemWords) (hbs : s.holdsBytes bsrc.toNat nbytes.toNat bs) :
    ∃ t, exec (.b2w bsrc wdst nbytes) s = .next t ∧ t.err = 0 ∧ t.cfg = s.cfg ∧
      t.holds wdst.toNat nwords.toNat (joinBytes bs) := by
  have hwords : nbytes.toNat / 4 = nwords.toNat := by omega
  have hctl := bodyOf_sameControl (.b2w bsrc wdst nbytes) s
  refine ⟨_, exec_ok herr ((checkB2w_none s.cfg).mpr ⟨by omega, hsrc, by omega⟩), hctl.err.trans herr, hctl.cfg, ?_⟩
  rw [bodyOf_b2w, hwords]
  exact b2wWords_holds (hlen ▸ hbs) _

/-- W2B on written words with its checks passed: what its destination holds, and that the block stays unfaulted. -/
theorem exec_w2b_holdsBytes {s : State} {wsrc bdst nwords : Word} {vs : Nat → Word} (herr : s.err = 0)
    (hsrc : wsrc.toNat + nwords.toNat ≤ s.cfg.wmemWords) (hdst : bdst.toNat + 4 * nwords.toNat ≤ s.cfg.bmemBytes)
    (hvs : s.holds wsrc.toNat nwords.toNat vs) :
    ∃ t, exec (.w2b wsrc bdst nwords) s = .next t ∧ t.err = 0 ∧ t.cfg = s.cfg ∧
      t.holdsBytes bdst.toNat (4 * nwords.toNat) (splitWords vs) := by
  have hctl := bodyOf_sameControl (.w2b wsrc bdst nwords) s
  exact ⟨_, exec_ok herr ((checkW2b_none s.cfg).mpr ⟨hsrc, hdst⟩), hctl.err.trans herr, hctl.cfg,
    w2bWords_holdsBytes hvs _⟩

/-- Settles O36: the first command leaves the source joined or split, the second undoes it, since `joinBytes` and
`splitWords` are inverse. -/
theorem codecRoundTrip : Obligations.CodecRoundTrip := by
  intro s b w d nbytes nwords herr hlen hw hb
  refine ⟨fun hd hwritten => ?_, fun hd hwritten => ?_⟩
  · obtain ⟨bs, hbs⟩ := State.exists_holdsBytes hwritten
    obtain ⟨t, ht, hterr, htcfg, hjoined⟩ := exec_b2w_holds herr hlen hb hw hbs
    obtain ⟨u, hu, -, -, hback⟩ :=
      exec_w2b_holdsBytes (bdst := d) hterr (htcfg ▸ hw) (htcfg ▸ hlen ▸ hd) hjoined
    rw [splitWords_joinBytes] at hback
    exact ⟨t, u, ht, hu, fun k hk => (hback k (hlen ▸ hk)).trans (hbs k hk).symm⟩
  · obtain ⟨vs, hvs⟩ := State.exists_holds hwritten
    obtain ⟨t, ht, hterr, htcfg, hsplit⟩ := exec_w2b_holdsBytes (bdst := b) herr hw (hlen ▸ hb) hvs
    obtain ⟨u, hu, -, -, hback⟩ :=
      exec_b2w_holds (wdst := d) hterr hlen (htcfg ▸ hb) (htcfg ▸ hd) (hlen ▸ hsplit)
    rw [joinBytes_splitWords] at hback
    exact ⟨t, u, ht, hu, fun j hj => (hback j hj).trans (hvs j hj).symm⟩

end Sys2Proof.Machine
end

section
/-! PROOFS. The block commands COPY and XOR: result, frame and refusals (41_blockops R121 to R125). -/

namespace Sys2Proof.Machine

theorem exec_of_unsupportedOverlap {i : Instr} {s : State} (h : s.err = 0) (hlen : breaksLength i = false)
    (hparam : breaksParam i = false) (hrange : outOfRange s.cfg i = false) (hover : unsupportedOverlap i = true) :
    exec i s = .next (faulted s 5 (encode i)) := by
  have hc : checkInstr s.cfg i = some .overlap := by simp [checkInstr_eq, hlen, hparam, hrange, hover]
  rw [exec_fault h hc, State.raiseFault_eq_faulted]
  rfl

/-- Settles O23: a copied word is what its source word gave before the command, and a written one gives what it
holds. -/
theorem copyMovesWords : Obligations.CopyMovesWords := by
  intro s srcPos dstPos len
  refine ⟨fun herr hsrc hdst hover => ?_, fun herr => exec_answeredLocked herr _,
    fun herr hout => exec_of_outOfRange herr rfl rfl (by simpa [outOfRange] using hout),
    fun herr hsrc hdst hlow hhigh => exec_of_unsupportedOverlap herr rfl rfl (by simp [outOfRange, hsrc, hdst])
      (by simp [unsupportedOverlap, hlow, hhigh])⟩
  obtain ⟨hframe, hother⟩ := copyWords_frame srcPos.toNat dstPos.toNat len.toNat s
  refine ⟨_, exec_ok herr ((checkMove_none s.cfg).mpr ⟨hsrc, hdst, hover⟩), ?_, hother, fun i hi u hu => ?_⟩
  · rw [bodyOf_copy, hframe]
    rfl
  · rw [State.respond_w, bodyOf_copy, copyWords_read hover s i hi, State.peekW_tick_of_read hu]

/-- Settles O24: a destination word is combined with what its source word gave before the command, and each of the two,
when written, gives what it holds. -/
theorem xorCombinesWords : Obligations.XorCombinesWords := by
  intro s srcPos dstPos len
  refine ⟨fun herr hsrc hdst hover => ?_, fun herr => exec_answeredLocked herr _,
    fun herr hout => exec_of_outOfRange herr rfl rfl (by simpa [outOfRange] using hout),
    fun herr hsrc hdst hlow hhigh => exec_of_unsupportedOverlap herr rfl rfl (by simp [outOfRange, hsrc, hdst])
      (by simp [unsupportedOverlap, hlow, hhigh])⟩
  obtain ⟨hframe, hother⟩ := xorWords_frame srcPos.toNat dstPos.toNat len.toNat s
  refine ⟨_, exec_ok herr ((checkMove_none s.cfg).mpr ⟨hsrc, hdst, hover⟩), ?_, hother, fun i hi d u hd hu => ?_⟩
  · rw [bodyOf_xor, hframe]
    rfl
  · rw [State.respond_w, bodyOf_xor, xorWords_read hover s i hi, State.peekW_tick_of_read hd,
      State.peekW_tick_of_read hu]

end Sys2Proof.Machine
end

section
/-! PROOFS. The laws of COPY and XOR (41_blockops R124). On disjoint regions a command leaves its source as it was, so a
second command with the same operands combines the destination with the same words. -/

namespace Sys2Proof.Machine

/-- COPY of written words to a disjoint region: both regions hold them, and the block stays unfaulted. -/
theorem exec_copy_holds {s : State} {src dst len : Word} {us : Nat → Word} (herr : s.err = 0)
    (hsrc : src.toNat + len.toNat ≤ s.cfg.wmemWords) (hdst : dst.toNat + len.toNat ≤ s.cfg.wmemWords)
    (hdisj : src.toNat + len.toNat ≤ dst.toNat ∨ dst.toNat + len.toNat ≤ src.toNat)
    (hus : s.holds src.toNat len.toNat us) :
    ∃ t, exec (.copy src dst len) s = .next t ∧ t.err = 0 ∧ t.cfg = s.cfg ∧ t.holds src.toNat len.toNat us ∧
      t.holds dst.toNat len.toNat us := by
  obtain ⟨hexec, -⟩ := copyMovesWords s src dst len
  obtain ⟨t, ht, hframe, hother, hcell⟩ := hexec herr hsrc hdst (by omega)
  exact ⟨t, ht, hframe ▸ herr, hframe ▸ rfl, fun i hi => (hother _ (by omega)).trans (hus i hi),
    fun i hi => hcell i hi _ (hus i hi)⟩

/-- XOR of written words into a disjoint written region: the source stays, the destination is combined with it, and the
block stays unfaulted. -/
theorem exec_xor_holds {s : State} {src dst len : Word} {us ds : Nat → Word} (herr : s.err = 0)
    (hsrc : src.toNat + len.toNat ≤ s.cfg.wmemWords) (hdst : dst.toNat + len.toNat ≤ s.cfg.wmemWords)
    (hdisj : src.toNat + len.toNat ≤ dst.toNat ∨ dst.toNat + len.toNat ≤ src.toNat)
    (hus : s.holds src.toNat len.toNat us) (hds : s.holds dst.toNat len.toNat ds) :
    ∃ t, exec (.xor src dst len) s = .next t ∧ t.err = 0 ∧ t.cfg = s.cfg ∧ t.holds src.toNat len.toNat us ∧
      t.holds dst.toNat len.toNat (fun i => ds i ^^^ us i) := by
  obtain ⟨hexec, -⟩ := xorCombinesWords s src dst len
  obtain ⟨t, ht, hframe, hother, hcell⟩ := hexec herr hsrc hdst (by omega)
  exact ⟨t, ht, hframe ▸ herr, hframe ▸ rfl, fun i hi => (hother _ (by omega)).trans (hus i hi),
    fun i hi => hcell i hi _ _ (hds i hi) (hus i hi)⟩

theorem checkInstr_xor_eq_copy (cfg : Config) (src dst len : Word) :
    checkInstr cfg (.xor src dst len) = checkInstr cfg (.copy src dst len) := rfl

/-- COPY and XOR with the same operands end in the same way, and neither writes outside the destination. -/
theorem exec_copy_xor_alike (s : State) (src dst len : Word) :
    ∃ t u, exec (.copy src dst len) s = .next t ∧ exec (.xor src dst len) s = .next u ∧
      t.reply = u.reply ∧ t.err = u.err ∧
      ∀ a, (a < dst.toNat ∨ dst.toNat + len.toNat ≤ a) → t.w.read a = s.w.read a ∧ u.w.read a = s.w.read a := by
  have hcheck := checkInstr_xor_eq_copy s.cfg src dst len
  obtain ⟨herr, hcopy⟩ | ⟨herr, f, hf, hcopy⟩ | ⟨herr, hc, hcopy⟩ := exec_cases (.copy src dst len) s
  · exact ⟨_, _, hcopy, exec_locked herr, rfl, rfl, fun _ _ => ⟨rfl, rfl⟩⟩
  · refine ⟨_, _, hcopy, exec_fault herr (hcheck.trans hf), ?_, ?_, fun _ _ => ⟨rfl, rfl⟩⟩
    · rw [State.raiseFault_reply, State.raiseFault_reply]
    · rw [State.raiseFault_err, State.raiseFault_err]
  · refine ⟨_, _, hcopy, exec_ok herr (hcheck.trans hc), rfl, ?_, fun a ha =>
      ⟨(copyWords_frame _ _ _ s).2 a ha, (xorWords_frame _ _ _ s).2 a ha⟩⟩
    rw [State.respond_err, State.respond_err, (bodyOf_sameControl _ s).err, (bodyOf_sameControl _ s).err]

/-- Settles O37: a word combined twice with the same word is itself again, and a word combined with itself is 0. -/
theorem blockOpsLaws : Obligations.BlockOpsLaws := by
  intro s src dst len
  refine ⟨fun herr hsrc hdst hdisj hwritten => ?_, exec_copy_xor_alike s src dst len⟩
  obtain ⟨us, hus⟩ := State.exists_holds hwritten
  refine ⟨fun hdwritten => ?_, ?_⟩
  · obtain ⟨ds, hds⟩ := State.exists_holds hdwritten
    obtain ⟨t, ht, hterr, htcfg, htsrc, htdst⟩ := exec_xor_holds herr hsrc hdst hdisj hus hds
    obtain ⟨u, hu, -, -, -, hback⟩ := exec_xor_holds hterr (htcfg ▸ hsrc) (htcfg ▸ hdst) hdisj htsrc htdst
    refine ⟨t, u, ht, hu, fun i hi => ?_⟩
    have htwice : ds i ^^^ us i ^^^ us i = ds i := by rw [BitVec.xor_assoc, BitVec.xor_self, BitVec.xor_zero]
    exact (hback i hi).trans ((congrArg some htwice).trans (hds i hi).symm)
  · obtain ⟨t, ht, hterr, htcfg, htsrc, htdst⟩ := exec_copy_holds herr hsrc hdst hdisj hus
    obtain ⟨u, hu, -, -, -, hclear⟩ := exec_xor_holds hterr (htcfg ▸ hsrc) (htcfg ▸ hdst) hdisj htsrc htdst
    exact ⟨t, u, ht, hu, fun i hi => (hclear i hi).trans (congrArg some BitVec.xor_self)⟩

end Sys2Proof.Machine
end

section
/-! PROOFS. The Salsa20/8 core against its reference form: the table of R143 is made of four-update quarter-rounds on
disjoint cells, so a round is fixed by what each quarter-round leaves in its four cells. -/

namespace Sys2Proof.Machine

/-- Four cells of the working state, in the order a quarter-round takes them (42_salsa20_8 R143). -/
structure Quarter where
  a : Fin 16
  b : Fin 16
  c : Fin 16
  d : Fin 16

def Quarter.cells (q : Quarter) : List (Fin 16) := [q.a, q.b, q.c, q.d]

/-- The four rows of the table that make up one quarter-round (42_salsa20_8 R143). -/
def Quarter.updates (q : Quarter) : List Update :=
  [⟨q.b, q.a, q.d, 7⟩, ⟨q.c, q.b, q.a, 9⟩, ⟨q.d, q.c, q.b, 13⟩, ⟨q.a, q.d, q.c, 18⟩]

/-- `y` holds in the four cells the quarter-round of what `x` holds there. -/
def Quarter.MixedInto (q : Quarter) (x y : Block) : Prop :=
  (y.get q.a, y.get q.b, y.get q.c, y.get q.d) = quarterRound (x.get q.a) (x.get q.b) (x.get q.c) (x.get q.d)

theorem Quarter.MixedInto.congr {q : Quarter} {x x' y y' : Block} (h : q.MixedInto x y)
    (hx : ∀ j ∈ q.cells, x.get j = x'.get j) (hy : ∀ j ∈ q.cells, y'.get j = y.get j) : q.MixedInto x' y' := by
  simp only [Quarter.cells, List.forall_mem_cons] at hx hy
  obtain ⟨hxa, hxb, hxc, hxd, -⟩ := hx
  obtain ⟨hya, hyb, hyc, hyd, -⟩ := hy
  rwa [Quarter.MixedInto, hya, hyb, hyc, hyd, ← hxa, ← hxb, ← hxc, ← hxd]

/-- Two results of a quarter-round on the same input agree in its cells. -/
theorem Quarter.MixedInto.get_eq {q : Quarter} {x y z : Block} (hy : q.MixedInto x y) (hz : q.MixedInto x z) :
    ∀ j ∈ q.cells, y.get j = z.get j := by
  have h := hy.trans hz.symm
  simp only [Prod.mk.injEq] at h
  simpa [Quarter.cells] using h

/-- The columns of the 4 by 4 matrix, each started at its diagonal cell. -/
def columnQuarters : List Quarter := [⟨0, 4, 8, 12⟩, ⟨5, 9, 13, 1⟩, ⟨10, 14, 2, 6⟩, ⟨15, 3, 7, 11⟩]

/-- The rows of the 4 by 4 matrix, each started at its diagonal cell. -/
def rowQuarters : List Quarter := [⟨0, 1, 2, 3⟩, ⟨5, 6, 7, 4⟩, ⟨10, 11, 8, 9⟩, ⟨15, 12, 13, 14⟩]

theorem columnRound_eq_flatMap : columnRound = columnQuarters.flatMap Quarter.updates := rfl

theorem rowRound_eq_flatMap : rowRound = rowQuarters.flatMap Quarter.updates := rfl

theorem applyUpdates_append (us vs : List Update) (x : Block) :
    applyUpdates (us ++ vs) x = applyUpdates vs (applyUpdates us x) :=
  List.foldl_append

theorem applyUpdate_get (x : Block) (u : Update) (j : Fin 16) :
    (applyUpdate x u).get j =
      if j = u.d then x.get u.d ^^^ rotl (x.get u.a + x.get u.b) u.k else x.get j := by
  split
  · next h => rw [h, applyUpdate_get_self]
  · next h => exact applyUpdate_get_ne x u h

/-- Updates leave alone every cell that is no destination of theirs. -/
theorem applyUpdates_get_of_not_mem {us : List Update} {j : Fin 16} (h : ∀ u ∈ us, j ≠ u.d) (x : Block) :
    (applyUpdates us x).get j = x.get j := by
  induction us generalizing x with
  | nil => rfl
  | cons u us ih =>
    obtain ⟨hu, hus⟩ := List.forall_mem_cons.mp h
    exact (ih hus (applyUpdate x u)).trans (applyUpdate_get_ne x u hu)

theorem Quarter.ne_dest_of_not_mem {q : Quarter} {j : Fin 16} (h : j ∉ q.cells) : ∀ u ∈ q.updates, j ≠ u.d := by
  simp only [Quarter.cells, List.mem_cons, List.not_mem_nil, or_false, not_or] at h
  obtain ⟨ha, hb, hc, hd⟩ := h
  simp [Quarter.updates, ha, hb, hc, hd]

/-- The four rows, one after another, are the quarter-round. -/
theorem Quarter.mixedInto_applyUpdates {q : Quarter} (hq : q.cells.Nodup) (x : Block) :
    q.MixedInto x (applyUpdates q.updates x) := by
  obtain ⟨a, b, c, d⟩ := q
  simp only [Quarter.cells, List.nodup_cons, List.mem_cons, List.not_mem_nil, or_false, not_or] at hq
  obtain ⟨⟨hab, hac, had⟩, ⟨hbc, hbd⟩, hcd, -⟩ := hq
  simp [Quarter.MixedInto, Quarter.updates, applyUpdates, applyUpdate_get, quarterRound,
    rotl_eq_rotateLeft, hab, hac, had, hbc, hbd, hcd, Ne.symm hab, Ne.symm hac, Ne.symm had, Ne.symm hbc,
    Ne.symm hbd, Ne.symm hcd]

/-- Quarter-rounds on disjoint cells: each sees the input of the round and nothing undoes it. -/
theorem mixedInto_applyUpdates_flatMap {qs : List Quarter} (hqs : (qs.flatMap Quarter.cells).Nodup) (x : Block) :
    ∀ q ∈ qs, q.MixedInto x (applyUpdates (qs.flatMap Quarter.updates) x) := by
  induction qs generalizing x with
  | nil => simp
  | cons q qs ih =>
    rw [List.flatMap_cons, List.nodup_append'] at hqs
    obtain ⟨hq, hqs, hdisj⟩ := hqs
    rw [List.flatMap_cons, applyUpdates_append]
    refine List.forall_mem_cons.mpr ⟨?_, fun p hp => ?_⟩
    · refine (q.mixedInto_applyUpdates hq x).congr (fun _ _ => rfl) fun j hj => ?_
      refine applyUpdates_get_of_not_mem (fun u hu => ?_) _
      obtain ⟨p, hp, hup⟩ := List.mem_flatMap.mp hu
      exact p.ne_dest_of_not_mem (fun hjp => hdisj hj (List.mem_flatMap_of_mem hp hjp)) u hup
    · refine (ih hqs _ p hp).congr (fun j hj => ?_) fun _ _ => rfl
      exact (applyUpdates_get_of_not_mem
        (q.ne_dest_of_not_mem fun hjq => hdisj hjq (List.mem_flatMap_of_mem hp hj)) x)

/-- A block is fixed by what quarter-rounds of the same input leave in its cells, once they cover it. -/
theorem eq_of_mixedInto {qs : List Quarter} (hcover : ∀ j : Fin 16, ∃ q ∈ qs, j ∈ q.cells) {x y z : Block}
    (hy : ∀ q ∈ qs, q.MixedInto x y) (hz : ∀ q ∈ qs, q.MixedInto x z) : y = z := by
  refine Vector.ext fun i hi => ?_
  obtain ⟨q, hq, hj⟩ := hcover ⟨i, hi⟩
  exact (hy q hq).get_eq (hz q hq) ⟨i, hi⟩ hj

theorem columnsOnce_mixedInto (x : Block) : ∀ q ∈ columnQuarters, q.MixedInto x (columnsOnce x) := by
  simp only [columnQuarters, List.forall_mem_cons]
  exact ⟨rfl, rfl, rfl, rfl, fun _ h => absurd h List.not_mem_nil⟩

theorem rowsOnce_mixedInto (x : Block) : ∀ q ∈ rowQuarters, q.MixedInto x (rowsOnce x) := by
  simp only [rowQuarters, List.forall_mem_cons]
  exact ⟨rfl, rfl, rfl, rfl, fun _ h => absurd h List.not_mem_nil⟩

theorem applyUpdates_columnRound (x : Block) : applyUpdates columnRound x = columnsOnce x :=
  eq_of_mixedInto (by decide) (mixedInto_applyUpdates_flatMap (qs := columnQuarters) (by decide) x)
    (columnsOnce_mixedInto x)

theorem applyUpdates_rowRound (x : Block) : applyUpdates rowRound x = rowsOnce x :=
  eq_of_mixedInto (by decide) (mixedInto_applyUpdates_flatMap (qs := rowQuarters) (by decide) x)
    (rowsOnce_mixedInto x)

/-- Settles O29: each half of the table is four quarter-rounds that cover the matrix. -/
theorem doubleRoundIsColumnsThenRows : Obligations.DoubleRoundIsColumnsThenRows := by
  intro x
  rw [doubleRound, applyUpdates_columnRound, applyUpdates_rowRound]

theorem doubleRounds_eq_iterate (n : Nat) (x : Block) : doubleRounds n x = (rowsOnce ∘ columnsOnce)^[n] x := by
  induction n with
  | zero => rfl
  | succ n ih =>
    rw [doubleRounds, doubleRoundIsColumnsThenRows, ih, Function.iterate_succ_apply', Function.comp_apply]

theorem addBlock_get (x y : Block) (k : Fin 16) : (addBlock x y).get k = x.get k + y.get k := by
  rw [addBlock, Vector.get_eq_getElem, Vector.getElem_ofFn]

/-- Settles O30: four double-rounds, each by O29, and the wrapping addition word by word. -/
theorem coreIsFourDoubleRoundsPlusInput : Obligations.CoreIsFourDoubleRoundsPlusInput := by
  intro b k
  rw [salsa20_8, addBlock_get, BitVec.toNat_add, permute, doubleRounds_eq_iterate]

/-- Settles O31: the core is evaluated on each of the three blocks, one small computation apiece. -/
theorem coreKnownAnswers : Obligations.CoreKnownAnswers :=
  ⟨by decide, by decide, by decide⟩

end Sys2Proof.Machine
end

section
/-! PROOFS. The command SALSA: result, frame, refusals, and what its result depends on (42_salsa20_8 R146, R147). -/

namespace Sys2Proof.Machine

/-- SALSA in range on an unfaulted block, with the memory it leaves as a value of its own (42_salsa20_8 R146). -/
theorem exec_salsa_ok {s : State} {addr : Word} (herr : s.err = 0) (hin : addr.toNat + 16 ≤ s.cfg.wmemWords) :
    ∃ w, exec (.salsa addr) s = .next
        { s with w := w, x := permute (s.peekBlock addr.toNat), reply := .response 0, free := s.free + 16 } ∧
      (∀ a, (a < addr.toNat ∨ addr.toNat + 16 ≤ a) → Memory.read a w = s.w.read a) ∧
      ∀ k : Fin 16, Memory.read (addr.toNat + k.val) w = some ((salsa20_8 (s.peekBlock addr.toNat)).get k) := by
  have hc : checkInstr s.cfg (.salsa addr) = none := (checkSalsa_none s.cfg).mpr hin
  obtain ⟨hframe, hother, hcell⟩ := salsaAt_spec addr.toNat s
  refine ⟨(salsaAt addr.toNat s).w, ?_, hother, hcell⟩
  rw [exec_ok herr hc, bodyOf_salsa, hframe]
  rfl

/-- Settles O25: a written block is read as it stands, so its core and its permuted form are those of the command. -/
theorem salsaMixesItsBlock : Obligations.SalsaMixesItsBlock := by
  intro s addr
  refine ⟨fun herr hin => ?_, fun herr => exec_answeredLocked herr _,
    fun herr hout => exec_of_outOfRange herr rfl rfl (by simpa [outOfRange] using hout)⟩
  obtain ⟨w, hexec, hother, hcell⟩ := exec_salsa_ok herr hin
  refine ⟨_, hexec, rfl, hother, fun b hb => ?_⟩
  rw [State.peekBlock_of_read hb] at hcell ⊢
  exact ⟨hcell, rfl⟩

/-- SALSA on a written block in range: the block holds its core, no other word and no byte changes, and the block stays
unfaulted. -/
theorem exec_salsa_holdsBlock {s : State} {addr : Word} {b : Block} (herr : s.err = 0)
    (hin : addr.toNat + 16 ≤ s.cfg.wmemWords) (hb : s.holdsBlock addr.toNat b) :
    ∃ t, exec (.salsa addr) s = .next t ∧ t.err = 0 ∧ t.cfg = s.cfg ∧ t.holdsBlock addr.toNat (salsa20_8 b) ∧
      (∀ a, (a < addr.toNat ∨ addr.toNat + 16 ≤ a) → t.w.read a = s.w.read a) ∧ t.bm = s.bm := by
  obtain ⟨hexec, -⟩ := salsaMixesItsBlock s addr
  obtain ⟨t, ht, hframe, hother, hblock⟩ := hexec herr hin
  exact ⟨t, ht, hframe ▸ herr, hframe ▸ rfl, (hblock b hb).1, hother, hframe ▸ rfl⟩

/-- Settles O32: both blocks end holding the core of the common input, and the second SALSA starts from it. -/
theorem salsaDependsOnItsBlockAlone : Obligations.SalsaDependsOnItsBlockAlone := by
  intro s s' addr addr' b herr herr' hin hin' hb hb'
  obtain ⟨t, ht, hterr, htcfg, hcore, hother, hbytes⟩ := exec_salsa_holdsBlock herr hin hb
  obtain ⟨t', ht', -, -, hcore', -⟩ := exec_salsa_holdsBlock herr' hin' hb'
  obtain ⟨u, hu, -, -, htwice, -⟩ := exec_salsa_holdsBlock hterr (htcfg ▸ hin) hcore
  exact ⟨t, t', u, ht, ht', hu, fun k hk => (hcore ⟨k, hk⟩).trans (hcore' ⟨k, hk⟩).symm, htwice, hother, hbytes⟩

end Sys2Proof.Machine
end

section
/-! PROOFS. BMIX on a written chunk: the slots it leaves, its frame and its refusals, and that its result depends on the
chunk alone (43_blockmix R161, R162, R163, R165). -/

namespace Sys2Proof.Machine

/-- The regions as BMIX leaves them from the input blocks `X`: the chained slots in slot order in the Y region, the even
slots and then the odd ones in the X region (43_blockmix R161). -/
structure State.HoldsMix (u : State) (xaddr yaddr r : Nat) (X : Nat → Block) : Prop where
  slots : ∀ i < 2 * r, u.holdsBlock (yaddr + 16 * i) (slot X (X (2 * r - 1)) i)
  evens : ∀ i < r, u.holdsBlock (xaddr + 16 * i) (slot X (X (2 * r - 1)) (2 * i))
  odds : ∀ i < r, u.holdsBlock (xaddr + 16 * (r + i)) (slot X (X (2 * r - 1)) (2 * i + 1))

/-- Slot `n` depends on the input blocks up to the `n`-th alone. -/
theorem slot_congr {X Y : Nat → Block} (start : Block) {n : Nat} (h : ∀ i ≤ n, X i = Y i) :
    slot X start n = slot Y start n := by
  induction n with
  | zero => rw [slot, slot, h 0 le_rfl]
  | succ n ih => rw [slot, slot, ih fun i hi => h i (by omega), h (n + 1) le_rfl]

theorem inputBlock_of_holdsBlock {s : State} {xaddr i : Nat} {b : Block} (h : s.holdsBlock (xaddr + 16 * i) b) :
    inputBlock s xaddr i = b :=
  State.peekBlock_of_read h

/-- From a written chunk the pipeline starts at its last block and takes each input block as it stands. -/
theorem blockMix_holdsMix {xaddr yaddr r : Nat} {s : State} {X : Nat → Block} (hr : 1 ≤ r)
    (hd : xaddr + 32 * r ≤ yaddr ∨ yaddr + 32 * r ≤ xaddr)
    (hX : ∀ i < 2 * r, s.holdsBlock (xaddr + 16 * i) (X i)) :
    (blockMix xaddr yaddr r s).HoldsMix xaddr yaddr r X ∧
      (blockMix xaddr yaddr r s).t = slot X (X (2 * r - 1)) (2 * r - 1) := by
  obtain ⟨w, x, heq, -, hslots, hevens, hodds⟩ := blockMix_spec hr hd s
  have hstart : s.peekBlock (xaddr + (2 * r - 1) * 16) = X (2 * r - 1) := by
    rw [Nat.mul_comm]
    exact State.peekBlock_of_read (hX _ (by omega))
  have hchain (i : Nat) (hi : i < 2 * r) :
      slot (inputBlock s xaddr) (X (2 * r - 1)) i = slot X (X (2 * r - 1)) i :=
    slot_congr _ fun j hj => inputBlock_of_holdsBlock (hX j (by omega))
  rw [hstart] at heq hslots hevens hodds
  rw [heq]
  refine ⟨⟨fun i hi => ?_, fun i hi => ?_, fun i hi => ?_⟩, hchain _ (by omega)⟩
  · rw [← hchain i hi]
    exact hslots i hi
  · rw [← hchain _ (by omega)]
    exact hevens i hi
  · rw [← hchain _ (by omega)]
    exact hodds i hi

/-- Settles O26: the checks pass, and from a written chunk the pipeline leaves the mix of its blocks. -/
theorem bmixMixesItsChunk : Obligations.BmixMixesItsChunk := by
  intro s xaddr yaddr r herr hr hx hy hmeet
  have hd : xaddr.toNat + 32 * r.toNat ≤ yaddr.toNat ∨ yaddr.toNat + 32 * r.toNat ≤ xaddr.toNat := by omega
  obtain ⟨w, x, heq, hother, -⟩ := blockMix_spec hr hd s
  refine ⟨_, exec_ok herr ((checkBmix_none s.cfg).mpr ⟨hr, hx, hy, hmeet⟩), ?_, fun a hax hay => ?_, fun X hX => ?_⟩
  · rw [bodyOf_bmix, heq]
    rfl
  · rw [State.respond_w, bodyOf_bmix, heq]
    exact hother a hax hay
  · obtain ⟨⟨hslots, hevens, hodds⟩, hlast⟩ := blockMix_holdsMix hr hd hX
    exact ⟨hslots, hevens, hodds, hlast⟩

theorem exec_of_breaksParam {i : Instr} {s : State} (h : s.err = 0) (hlen : breaksLength i = false)
    (hparam : breaksParam i = true) : exec i s = .next (faulted s 3 (encode i)) := by
  have hc : checkInstr s.cfg i = some .param := by simp [checkInstr_eq, hlen, hparam]
  rw [exec_fault h hc, State.raiseFault_eq_faulted]
  rfl

theorem breaksParam_bmix_of_pos {xaddr yaddr r : Word} (hr : 1 ≤ r.toNat) :
    breaksParam (.bmix xaddr yaddr r) = false :=
  decide_eq_false (by omega)

/-- Settles O27: each refusal is the first of the checks of R207 that fails. -/
theorem bmixRefusals : Obligations.BmixRefusals := by
  intro s xaddr yaddr r
  exact ⟨fun herr => exec_answeredLocked herr _,
    fun herr hr => exec_of_breaksParam herr rfl (by simp [breaksParam, hr]),
    fun herr hr hout => exec_of_outOfRange herr rfl (breaksParam_bmix_of_pos hr) (by simpa [outOfRange] using hout),
    fun herr hr hx hy hlow hhigh => exec_of_unsupportedOverlap herr rfl (breaksParam_bmix_of_pos hr)
      (by simp [outOfRange, hx, hy]) (by simp [unsupportedOverlap, hlow, hhigh])⟩

/-- A run of written words is a run of written blocks. -/
theorem State.exists_holdsBlocks {s : State} {a n : Nat} (h : ∀ k < 16 * n, (s.w.read (a + k)).isSome) :
    ∃ X : Nat → Block, ∀ i < n, s.holdsBlock (a + 16 * i) (X i) := by
  obtain ⟨vs, hvs⟩ := State.exists_holds h
  refine ⟨fun i => Vector.ofFn fun k : Fin 16 => vs (16 * i + k.val), fun i hi k => ?_⟩
  rw [Vector.get_eq_getElem, Vector.getElem_ofFn, Nat.add_assoc]
  exact hvs _ (by omega)

/-- Two blocks of equal contents agree cell by cell, wherever they stand. -/
theorem State.holdsBlock.read_eq {s u : State} {a b : Nat} {v : Block} (hs : s.holdsBlock a v) (hu : u.holdsBlock b v)
    (k : Fin 16) : s.w.read (a + k.val) = u.w.read (b + k.val) :=
  (hs k).trans (hu k).symm

/-- The mix of the same blocks is the same, word by word, in any two layouts. -/
theorem State.HoldsMix.read_eq {u v : State} {xaddr yaddr xaddr' yaddr' r : Nat} {X : Nat → Block}
    (hu : u.HoldsMix xaddr yaddr r X) (hv : v.HoldsMix xaddr' yaddr' r X) :
    ∀ k < 32 * r, u.w.read (xaddr + k) = v.w.read (xaddr' + k) ∧ u.w.read (yaddr + k) = v.w.read (yaddr' + k) := by
  intro k hk
  obtain ⟨i, hi, j, rfl⟩ : ∃ i < 2 * r, ∃ j : Fin 16, k = 16 * i + j.val := by
    simpa using exists_block_of_mem_chunk (base := 0) (r := r) (a := k) (by omega)
  simp only [← Nat.add_assoc]
  refine ⟨?_, State.holdsBlock.read_eq (hu.slots i hi) (hv.slots i hi) j⟩
  obtain hlt | hge := Nat.lt_or_ge i r
  · exact State.holdsBlock.read_eq (hu.evens i hlt) (hv.evens i hlt) j
  · obtain ⟨m, rfl⟩ := Nat.exists_eq_add_of_le hge
    exact State.holdsBlock.read_eq (hu.odds m (by omega)) (hv.odds m (by omega)) j

/-- A BMIX that answers OK leaves a written chunk mixed, and writes its two regions alone. -/
theorem exec_bmix_holdsMix {s t : State} {xaddr yaddr r : Word} {X : Nat → Block}
    (h : exec (.bmix xaddr yaddr r) s = .next t) (hok : t.reply = .response 0)
    (hX : ∀ i < 2 * r.toNat, s.holdsBlock (xaddr.toNat + 16 * i) (X i)) :
    t.HoldsMix xaddr.toNat yaddr.toNat r.toNat X ∧
      (∀ a, (a < xaddr.toNat ∨ xaddr.toNat + 32 * r.toNat ≤ a) →
        (a < yaddr.toNat ∨ yaddr.toNat + 32 * r.toNat ≤ a) → t.w.read a = s.w.read a) ∧ t.bm = s.bm := by
  obtain ⟨-, -, hne⟩ | ⟨hc, rfl⟩ := exec_refused_or_executed h
  · exact absurd hok hne
  · obtain ⟨hr, -, -, hmeet⟩ := (checkBmix_none s.cfg).mp hc
    have hd : xaddr.toNat + 32 * r.toNat ≤ yaddr.toNat ∨ yaddr.toNat + 32 * r.toNat ≤ xaddr.toNat := by omega
    obtain ⟨⟨hslots, hevens, hodds⟩, -⟩ := blockMix_holdsMix hr hd hX
    refine ⟨⟨hslots, hevens, hodds⟩, fun a hax hay => ?_, ?_⟩
    · exact (blockMix_writesWords hr hd s).frame a (decide_eq_false (by omega))
    · rw [State.respond_bm, bodyOf_bm (by simp)]

/-- Settles O33: both commands leave the mix of the same blocks, each in its own layout. -/
theorem bmixDependsOnItsChunkAlone : Obligations.BmixDependsOnItsChunkAlone := by
  intro s s' t t' xaddr yaddr xaddr' yaddr' r h h' hok hok' hsame
  obtain ⟨X, hX⟩ := State.exists_holdsBlocks (s := s) (a := xaddr.toNat) (n := 2 * r.toNat)
    fun k hk => (hsame k (by omega)).1
  have hX' : ∀ i < 2 * r.toNat, s'.holdsBlock (xaddr'.toNat + 16 * i) (X i) := by
    intro i hi k
    have hcell := (hsame (16 * i + k.val) (by omega)).2
    rw [← Nat.add_assoc, ← Nat.add_assoc] at hcell
    exact hcell.symm.trans (hX i hi k)
  obtain ⟨hmix, hother, hbytes⟩ := exec_bmix_holdsMix h hok hX
  obtain ⟨hmix', -, -⟩ := exec_bmix_holdsMix h' hok' hX'
  exact ⟨hmix.read_eq hmix', hother, hbytes⟩

/-- Settles O35: of two slots the first is the even one and the second the odd one, as they stand in the Y region. -/
theorem bmixOfTwoBlocksLeavesEqualRegions : Obligations.BmixOfTwoBlocksLeavesEqualRegions := by
  intro s t xaddr yaddr h hok hwritten k hk
  obtain ⟨X, hX⟩ := State.exists_holdsBlocks (n := 2) hwritten
  obtain ⟨⟨hslots, hevens, hodds⟩, -⟩ := exec_bmix_holdsMix h hok hX
  obtain hlt | hge := Nat.lt_or_ge k 16
  · exact (hevens 0 (by decide)).read_eq (hslots 0 (by decide)) ⟨k, hlt⟩
  · obtain ⟨m, rfl⟩ := Nat.exists_eq_add_of_le hge
    rw [← Nat.add_assoc, ← Nat.add_assoc]
    exact (hodds 0 (by decide)).read_eq (hslots 1 (by decide)) ⟨m, by omega⟩

end Sys2Proof.Machine
end

section
/-! PROOFS. BMIX as the sequence of COPY, XOR and SALSA commands of 43_blockmix R164: the sequence is followed block by
block, and the loop invariant of its turns is what BMIX itself has done after as many turns. -/

namespace Sys2Proof.Machine

/-! ### Blocks put into place -/

/-- From `s` to `u` the `n` blocks from `dst` have become `B 0, B 1, ...`; the sizes, `ERR` and every other word are as
they were. -/
structure PutsBlocks (s u : State) (dst n : Nat) (B : Nat → Block) : Prop where
  cfg : u.cfg = s.cfg
  err : u.err = s.err
  blocks : ∀ i < n, u.holdsBlock (dst + 16 * i) (B i)
  frame : ∀ a, (a < dst ∨ dst + 16 * n ≤ a) → u.w.read a = s.w.read a

theorem PutsBlocks.zero (s : State) (dst : Nat) (B : Nat → Block) : PutsBlocks s s dst 0 B :=
  ⟨rfl, rfl, fun _ h => absurd h (Nat.not_lt_zero _), fun _ _ => rfl⟩

theorem PutsBlocks.one {s u : State} {dst : Nat} {b : Block} (hcfg : u.cfg = s.cfg) (herr : u.err = s.err)
    (hb : u.holdsBlock dst b) (hother : ∀ a, (a < dst ∨ dst + 16 ≤ a) → u.w.read a = s.w.read a) :
    PutsBlocks s u dst 1 fun _ => b := by
  refine ⟨hcfg, herr, fun i hi => ?_, hother⟩
  obtain rfl := Nat.lt_one_iff.mp hi
  exact hb

theorem PutsBlocks.block {s u : State} {dst : Nat} {b : Block} (h : PutsBlocks s u dst 1 fun _ => b) :
    u.holdsBlock dst b :=
  h.blocks 0 Nat.one_pos

/-- A block outside the region stays. -/
theorem PutsBlocks.keeps {s u : State} {dst n a : Nat} {B : Nat → Block} {b : Block} (h : PutsBlocks s u dst n B)
    (hd : a + 16 ≤ dst ∨ dst + 16 * n ≤ a) (hb : s.holdsBlock a b) : u.holdsBlock a b :=
  fun k => (h.frame _ (by omega)).trans (hb k)

theorem PutsBlocks.succ {s u v : State} {dst n : Nat} {B : Nat → Block} (h : PutsBlocks s u dst n B)
    (hn : PutsBlocks u v (dst + 16 * n) 1 fun _ => B n) : PutsBlocks s v dst (n + 1) B := by
  refine ⟨hn.cfg.trans h.cfg, hn.err.trans h.err, fun i hi => ?_, fun a ha => ?_⟩
  · obtain hlt | rfl := Nat.lt_succ_iff_lt_or_eq.mp hi
    · exact hn.keeps (by omega) (h.blocks i hlt)
    · exact hn.block
  · exact (hn.frame a (by omega)).trans (h.frame a (by omega))

/-! ### One command on blocks -/

theorem toNat_ofNat_of_lt {a : Nat} (h : a < 2 ^ 32) : (BitVec.ofNat 32 a).toNat = a :=
  (BitVec.toNat_ofNat ..).trans (Nat.mod_eq_of_lt h)

theorem exec_copy_block {s : State} {src dst : Nat} {b : Block} (hsize : s.cfg.wmemWords < 2 ^ 32) (herr : s.err = 0)
    (hsrc : src + 16 ≤ s.cfg.wmemWords) (hdst : dst + 16 ≤ s.cfg.wmemWords) (hd : src + 16 ≤ dst ∨ dst + 16 ≤ src)
    (hb : s.holdsBlock src b) :
    ∃ u, exec (.copy (.ofNat 32 src) (.ofNat 32 dst) 16) s = .next u ∧ PutsBlocks s u dst 1 fun _ => b := by
  have hs := toNat_ofNat_of_lt (a := src) (by omega)
  have ht := toNat_ofNat_of_lt (a := dst) (by omega)
  have h := (copyMovesWords s (.ofNat 32 src) (.ofNat 32 dst) 16).1 herr
  rw [hs, ht] at h
  have hover : ¬ (src < dst ∧ dst < src + 16) := by omega
  obtain ⟨u, hu, hframe, hother, hcell⟩ := h hsrc hdst hover
  exact ⟨u, hu, .one (hframe ▸ rfl) (hframe ▸ rfl) (fun k => hcell k.val k.isLt _ (hb k)) hother⟩

theorem xorBlock_get (x y : Block) (k : Fin 16) : (xorBlock x y).get k = x.get k ^^^ y.get k := by
  rw [xorBlock, Vector.get_eq_getElem, Vector.getElem_ofFn]

theorem exec_xor_block {s : State} {src dst : Nat} {b d : Block} (hsize : s.cfg.wmemWords < 2 ^ 32) (herr : s.err = 0)
    (hsrc : src + 16 ≤ s.cfg.wmemWords) (hdst : dst + 16 ≤ s.cfg.wmemWords) (hd : src + 16 ≤ dst ∨ dst + 16 ≤ src)
    (hb : s.holdsBlock src b) (hdb : s.holdsBlock dst d) :
    ∃ u, exec (.xor (.ofNat 32 src) (.ofNat 32 dst) 16) s = .next u ∧ PutsBlocks s u dst 1 fun _ => xorBlock d b := by
  have hs := toNat_ofNat_of_lt (a := src) (by omega)
  have ht := toNat_ofNat_of_lt (a := dst) (by omega)
  have h := (xorCombinesWords s (.ofNat 32 src) (.ofNat 32 dst) 16).1 herr
  rw [hs, ht] at h
  have hover : ¬ (src < dst ∧ dst < src + 16) := by omega
  obtain ⟨u, hu, hframe, hother, hcell⟩ := h hsrc hdst hover
  refine ⟨u, hu, .one (hframe ▸ rfl) (hframe ▸ rfl) (fun k => ?_) hother⟩
  rw [xorBlock_get]
  exact hcell k.val k.isLt _ _ (hdb k) (hb k)

theorem exec_salsa_block {s : State} {addr : Nat} {b : Block} (hsize : s.cfg.wmemWords < 2 ^ 32) (herr : s.err = 0)
    (hin : addr + 16 ≤ s.cfg.wmemWords) (hb : s.holdsBlock addr b) :
    ∃ u, exec (.salsa (.ofNat 32 addr)) s = .next u ∧ PutsBlocks s u addr 1 fun _ => salsa20_8 b := by
  have ha := toNat_ofNat_of_lt (a := addr) (by omega)
  obtain ⟨u, hu, hframe, hother, hcell⟩ := (salsaMixesItsBlock s (.ofNat 32 addr)).1 herr (ha.symm ▸ hin)
  rw [ha] at hother hcell
  exact ⟨u, hu, .one (hframe ▸ rfl) (hframe ▸ rfl) (hcell b hb).1 hother⟩

/-! ### Sequences of commands -/

theorem execAll_cons {i : Instr} {is : List Instr} {s u : State} (h : exec i s = .next u) :
    execAll (i :: is) s = execAll is u := by
  simp only [execAll, h]

theorem execAll_append {is js : List Instr} {s u : State} (h : execAll is s = some u) :
    execAll (is ++ js) s = execAll js u := by
  induction is generalizing s with
  | nil => cases h; rfl
  | cons i is ih =>
    obtain ⟨v, hv⟩ := exec_goes_on i s
    rw [execAll_cons hv] at h
    rw [List.cons_append, execAll_cons hv, ih h]

/-- A loop of block copies into consecutive blocks, from written blocks outside all of them. -/
theorem execAll_copies {s : State} {src : Nat → Nat} {dst n : Nat} {B : Nat → Block}
    (hsize : s.cfg.wmemWords < 2 ^ 32) (herr : s.err = 0) (hsrc : ∀ i < n, src i + 16 ≤ s.cfg.wmemWords)
    (hdst : dst + 16 * n ≤ s.cfg.wmemWords) (hd : ∀ i < n, src i + 16 ≤ dst ∨ dst + 16 * n ≤ src i)
    (hB : ∀ i < n, s.holdsBlock (src i) (B i)) :
    ∃ u, execAll ((List.range n).map fun i => .copy (.ofNat 32 (src i)) (.ofNat 32 (dst + 16 * i)) 16) s = some u ∧
      PutsBlocks s u dst n B := by
  induction n with
  | zero => exact ⟨s, rfl, .zero s dst B⟩
  | succ n ih =>
    have hdn := hd n (by omega)
    obtain ⟨u, hu, hput⟩ := ih (fun i hi => hsrc i (by omega)) (by omega)
      (fun i hi => by have := hd i (by omega); omega) (fun i hi => hB i (by omega))
    obtain ⟨v, hv, hputn⟩ := exec_copy_block (s := u) (src := src n) (dst := dst + 16 * n) (b := B n)
      (hput.cfg ▸ hsize) (hput.err.trans herr) (hput.cfg ▸ hsrc n (by omega)) (by rw [hput.cfg]; omega) (by omega)
      (hput.keeps (by omega) (hB n (by omega)))
    refine ⟨v, ?_, hput.succ hputn⟩
    rw [List.range_succ, List.map_append, execAll_append hu]
    exact execAll_cons hv

/-! ### The turns of R164 -/

/-- The operands of R164 on a block of `size` words: regions in range, disjoint, and the spare block clear of both. -/
structure MixLayout (size x y r spare : Nat) : Prop where
  size_lt : size < 2 ^ 32
  x_le : x + 32 * r ≤ size
  y_le : y + 32 * r ≤ size
  spare_le : spare + 16 ≤ size
  x_y : x + 32 * r ≤ y ∨ y + 32 * r ≤ x
  x_spare : x + 32 * r ≤ spare ∨ spare + 16 ≤ x
  y_spare : y + 32 * r ≤ spare ∨ spare + 16 ≤ y

/-- What the chain carries into turn `n`: the start, then the slot before. -/
def carried (X : Nat → Block) (start : Block) : Nat → Block
  | 0 => start
  | n + 1 => slot X start n

theorem slot_eq_carried (X : Nat → Block) (start : Block) (n : Nat) :
    slot X start n = salsa20_8 (xorBlock (carried X start n) (X n)) := by
  cases n <;> rfl

/-- After `n` turns the X region still holds the input blocks, the Y region the first `n` slots, and the spare block
what the next turn starts from, as `T` does in BMIX (43_blockmix R164). -/
structure MixedTurns (s u : State) (x y r spare n : Nat) (X : Nat → Block) : Prop where
  cfg : u.cfg = s.cfg
  err : u.err = s.err
  input : ∀ i < 2 * r, u.holdsBlock (x + 16 * i) (X i)
  slots : ∀ i < n, u.holdsBlock (y + 16 * i) (slot X (X (2 * r - 1)) i)
  spare : u.holdsBlock spare (carried X (X (2 * r - 1)) n)

/-- The commands of turn `i` (43_blockmix R164). -/
def turnCommands (x y spare i : Nat) : List Instr :=
  [.xor (.ofNat 32 (x + 16 * i)) (.ofNat 32 spare) 16, .salsa (.ofNat 32 spare),
    .copy (.ofNat 32 spare) (.ofNat 32 (y + 16 * i)) 16]

theorem execAll_turn {s u : State} {x y r spare n : Nat} {X : Nat → Block}
    (hl : MixLayout s.cfg.wmemWords x y r spare) (herr : s.err = 0) (hn : n < 2 * r)
    (h : MixedTurns s u x y r spare n X) :
    ∃ v, execAll (turnCommands x y spare n) u = some v ∧ MixedTurns s v x y r spare (n + 1) X := by
  obtain ⟨hsize, hx, hy, hspare, hxy, hxs, hys⟩ := hl
  obtain ⟨hcfg, huerr, hinput, hslots, hcarried⟩ := h
  rw [← hcfg] at hsize hx hy hspare
  rw [herr] at huerr
  obtain ⟨u₁, hu₁, hxor⟩ := exec_xor_block (s := u) (src := x + 16 * n) (dst := spare) hsize huerr (by omega) hspare
    (by omega) (hinput n hn) hcarried
  obtain ⟨u₂, hu₂, hsalsa⟩ := exec_salsa_block (s := u₁) (hxor.cfg ▸ hsize) (hxor.err.trans huerr)
    (hxor.cfg ▸ hspare) hxor.block
  have hcfg₂ := hsalsa.cfg.trans hxor.cfg
  have herr₂ := hsalsa.err.trans hxor.err
  rw [← slot_eq_carried] at hsalsa
  obtain ⟨v, hv, hcopy⟩ := exec_copy_block (s := u₂) (src := spare) (dst := y + 16 * n) (hcfg₂ ▸ hsize)
    (herr₂.trans huerr) (hcfg₂ ▸ hspare) (by rw [hcfg₂]; omega) (by omega) hsalsa.block
  refine ⟨v, ?_, (hcopy.cfg.trans hcfg₂).trans hcfg, (hcopy.err.trans herr₂).trans (huerr.trans herr.symm),
    fun i hi => ?_, fun i hi => ?_, hcopy.keeps (by omega) hsalsa.block⟩
  · rw [turnCommands, execAll_cons hu₁, execAll_cons hu₂, execAll_cons hv]
    rfl
  · exact hcopy.keeps (by omega) (hsalsa.keeps (by omega) (hxor.keeps (by omega) (hinput i hi)))
  · obtain hlt | rfl := Nat.lt_succ_iff_lt_or_eq.mp hi
    · exact hcopy.keeps (by omega) (hsalsa.keeps (by omega) (hxor.keeps (by omega) (hslots i hlt)))
    · exact hcopy.block

theorem execAll_turns {s u : State} {x y r spare : Nat} {X : Nat → Block}
    (hl : MixLayout s.cfg.wmemWords x y r spare) (herr : s.err = 0) (h : MixedTurns s u x y r spare 0 X) {n : Nat}
    (hn : n ≤ 2 * r) :
    ∃ v, execAll ((List.range n).flatMap (turnCommands x y spare)) u = some v ∧ MixedTurns s v x y r spare n X := by
  induction n with
  | zero => exact ⟨u, rfl, h⟩
  | succ n ih =>
    obtain ⟨v, hv, hturns⟩ := ih (by omega)
    obtain ⟨w, hw, hturns'⟩ := execAll_turn hl herr hn hturns
    refine ⟨w, ?_, hturns'⟩
    rw [List.range_succ, List.flatMap_append, execAll_append hv, List.flatMap_singleton, hw]

/-! ### The whole sequence -/

theorem blockMixCommands_eq (x y r spare : Nat) :
    blockMixCommands x y r spare =
      [.copy (.ofNat 32 (x + (2 * r - 1) * 16)) (.ofNat 32 spare) 16] ++
      (List.range (2 * r)).flatMap (turnCommands x y spare) ++
      (List.range r).map (fun i => .copy (.ofNat 32 (y + 32 * i)) (.ofNat 32 (x + 16 * i)) 16) ++
      (List.range r).map
        (fun i => .copy (.ofNat 32 (y + 32 * i + 16)) (.ofNat 32 (x + 16 * r + 16 * i)) 16) := by
  have hodd (i : Nat) : x + 16 * r + 16 * i = x + 16 * (r + i) := by omega
  simp only [hodd]
  rfl

/-- The last two loops of R164: from the slots in the Y region the even ones and then the odd ones are copied to the X
region, and no block outside it changes. -/
theorem execAll_deinterleave {s : State} {x y r : Nat} {X : Nat → Block} (hsize : s.cfg.wmemWords < 2 ^ 32)
    (herr : s.err = 0) (hx : x + 32 * r ≤ s.cfg.wmemWords) (hy : y + 32 * r ≤ s.cfg.wmemWords)
    (hxy : x + 32 * r ≤ y ∨ y + 32 * r ≤ x)
    (hslots : ∀ i < 2 * r, s.holdsBlock (y + 16 * i) (slot X (X (2 * r - 1)) i)) :
    ∃ u, execAll
        ((List.range r).map (fun i => .copy (.ofNat 32 (y + 32 * i)) (.ofNat 32 (x + 16 * i)) 16) ++
        (List.range r).map
          (fun i => .copy (.ofNat 32 (y + 32 * i + 16)) (.ofNat 32 (x + 16 * r + 16 * i)) 16)) s = some u ∧
      u.err = 0 ∧ u.HoldsMix x y r X ∧
      ∀ a b, (a + 16 ≤ x ∨ x + 32 * r ≤ a) → s.holdsBlock a b → u.holdsBlock a b := by
  have heven (i : Nat) (hi : i < r) : s.holdsBlock (y + 32 * i) (slot X (X (2 * r - 1)) (2 * i)) := by
    rw [(by omega : y + 32 * i = y + 16 * (2 * i))]
    exact hslots _ (by omega)
  have hodd (i : Nat) (hi : i < r) : s.holdsBlock (y + 32 * i + 16) (slot X (X (2 * r - 1)) (2 * i + 1)) := by
    rw [(by omega : y + 32 * i + 16 = y + 16 * (2 * i + 1))]
    exact hslots _ (by omega)
  obtain ⟨u, hu, hevens⟩ := execAll_copies (dst := x) hsize herr (fun i hi => by omega) (by omega)
    (fun i hi => by omega) heven
  have hcfg := hevens.cfg
  have huerr := hevens.err.trans herr
  obtain ⟨v, hv, hodds⟩ := execAll_copies (dst := x + 16 * r) (hcfg ▸ hsize) huerr
    (fun i hi => by rw [hcfg]; omega) (by rw [hcfg]; omega) (fun i hi => by omega)
    fun i hi => hevens.keeps (by omega) (hodd i hi)
  have hkeeps (a : Nat) (b : Block) (ha : a + 16 ≤ x ∨ x + 32 * r ≤ a) (hb : s.holdsBlock a b) : v.holdsBlock a b :=
    hodds.keeps (by omega) (hevens.keeps (by omega) hb)
  refine ⟨v, (execAll_append hu).trans hv, hodds.err.trans huerr, ⟨fun i hi => ?_, fun i hi => ?_, fun i hi => ?_⟩,
    hkeeps⟩
  · exact hkeeps _ _ (by omega) (hslots i hi)
  · exact hodds.keeps (by omega) (hevens.blocks i hi)
  · rw [Nat.mul_add, ← Nat.add_assoc]
    exact hodds.blocks i hi

/-- The sequence leaves a written chunk mixed, with the last slot in the spare block. -/
theorem execAll_blockMixCommands {s : State} {x y r spare : Nat} {X : Nat → Block}
    (hl : MixLayout s.cfg.wmemWords x y r spare) (herr : s.err = 0) (hr : 1 ≤ r)
    (hX : ∀ i < 2 * r, s.holdsBlock (x + 16 * i) (X i)) :
    ∃ u, execAll (blockMixCommands x y r spare) s = some u ∧ u.err = 0 ∧ u.HoldsMix x y r X ∧
      u.holdsBlock spare (slot X (X (2 * r - 1)) (2 * r - 1)) := by
  have ⟨hsize, hx, hy, hspare, hxy, hxs, hys⟩ := hl
  obtain ⟨u, hu, hload⟩ := exec_copy_block (src := x + (2 * r - 1) * 16) (dst := spare) hsize herr (by omega) hspare
    (by omega) (Nat.mul_comm .. ▸ hX (2 * r - 1) (by omega))
  have hstart : MixedTurns s u x y r spare 0 X :=
    ⟨hload.cfg, hload.err, fun i hi => hload.keeps (by omega) (hX i hi), fun _ h => absurd h (Nat.not_lt_zero _),
      hload.block⟩
  obtain ⟨v, hv, hcfg, hverr, -, hslots, hcarried⟩ := execAll_turns hl herr hstart le_rfl
  obtain ⟨w, hw, hwerr, hmix, hkeeps⟩ := execAll_deinterleave (hcfg ▸ hsize) (hverr.trans herr) (hcfg ▸ hx)
    (hcfg ▸ hy) hxy hslots
  have hlast : carried X (X (2 * r - 1)) (2 * r) = slot X (X (2 * r - 1)) (2 * r - 1) := by
    obtain ⟨m, rfl⟩ : ∃ m, r = m + 1 := ⟨r - 1, by omega⟩
    rfl
  refine ⟨w, ?_, hwerr, hmix, hkeeps _ _ (by omega) (hlast ▸ hcarried)⟩
  rw [blockMixCommands_eq, List.append_assoc, execAll_append ((execAll_append (execAll_cons hu)).trans hv), hw]

/-- Settles O34: the sequence and BMIX leave the mix of the same blocks, and the spare block ends as `T` does. -/
theorem bmixEqualsItsCommandSequence : Obligations.BmixEqualsItsCommandSequence := by
  intro s xaddr yaddr r spare hbounded herr hr hx hy hspare hxy hxs hys hwritten
  obtain ⟨-, hwords, -, -⟩ := hbounded
  obtain ⟨X, hX⟩ := State.exists_holdsBlocks (s := s) (a := xaddr.toNat) (n := 2 * r.toNat)
    fun k hk => hwritten k (by omega)
  obtain ⟨t, ht, -, -, hmixed⟩ := bmixMixesItsChunk s xaddr yaddr r herr hr hx hy (by omega)
  obtain ⟨hslots, hevens, hodds, hlast⟩ := hmixed X hX
  obtain ⟨u, hu, huerr, hmix, hcarried⟩ :=
    execAll_blockMixCommands ⟨by omega, hx, hy, hspare, hxy, hxs, hys⟩ herr hr hX
  exact ⟨t, u, ht, hu, huerr, hmix.read_eq ⟨hslots, hevens, hodds⟩, hlast ▸ hcarried⟩

end Sys2Proof.Machine
end

section
/-! PROOFS. An `Issue` follows the check order of 60_exceptions R207: the lock, the decoder, then the command's own
checks, each fault raised exactly when its check is the first to fail (R201 to R206). -/

namespace Sys2Proof.Machine

/-- Settles O10: with no move pending the step is idle. -/
theorem idleBlockHoldsItsState : Obligations.IdleBlockHoldsItsState :=
  fun _ => step_of_idle

/-- Settles O11: the lock is checked before the word is decoded. -/
theorem lockedBlockAnswersLocked : Obligations.LockedBlockAnswersLocked := by
  intro s cmd rest herr hm
  rw [step_of_move hm]
  exact issue_locked (s := { s with host := rest }) herr

theorem exists_decode_error_of_not_legal {cmd : Command} (h : ¬ cmd.legal) : ∃ e, decode cmd = .error e := by
  cases hd : decode cmd with
  | error e => exact ⟨e, rfl⟩
  | ok i => exact absurd (legal_of_decode hd) h

theorem step_of_illegal {s : State} {cmd : Command} {rest : List HostMove} {e : Illegal} (herr : s.err = 0)
    (hm : s.host = .issue cmd :: rest) (hd : decode cmd = .error e) :
    step s = .next (faulted { s with host := rest } 1 cmd) := by
  rw [step_of_move hm]
  exact issue_illegal (s := { s with host := rest }) herr hd

/-- Settles O12: a word that is not legal does not decode. -/
theorem illegalWordsRaiseIllegal : Obligations.IllegalWordsRaiseIllegal := by
  intro s cmd rest herr hm hlegal
  obtain ⟨e, hd⟩ := exists_decode_error_of_not_legal hlegal
  exact step_of_illegal herr hm hd

/-! ### What each outcome of the checks means -/

theorem checkInstr_eq_length_iff {cfg : Config} {i : Instr} :
    checkInstr cfg i = some .length ↔ breaksLength i = true := by
  rw [checkInstr_eq]
  split_ifs <;> simp_all

theorem checkInstr_eq_param_iff {cfg : Config} {i : Instr} :
    checkInstr cfg i = some .param ↔ breaksLength i = false ∧ breaksParam i = true := by
  rw [checkInstr_eq]
  split_ifs <;> simp_all

theorem checkInstr_eq_range_iff {cfg : Config} {i : Instr} :
    checkInstr cfg i = some .range ↔
      breaksLength i = false ∧ breaksParam i = false ∧ outOfRange cfg i = true := by
  rw [checkInstr_eq]
  split_ifs <;> simp_all

theorem checkInstr_eq_overlap_iff {cfg : Config} {i : Instr} :
    checkInstr cfg i = some .overlap ↔
      breaksLength i = false ∧ breaksParam i = false ∧ outOfRange cfg i = false ∧ unsupportedOverlap i = true := by
  rw [checkInstr_eq]
  split_ifs <;> simp_all

theorem checkInstr_eq_none_iff {cfg : Config} {i : Instr} :
    checkInstr cfg i = none ↔
      breaksLength i = false ∧ breaksParam i = false ∧ outOfRange cfg i = false ∧ unsupportedOverlap i = false := by
  rw [checkInstr_eq]
  split_ifs <;> simp_all

theorem breaksLength_iff {i : Instr} :
    breaksLength i = true ↔ ∃ bsrc wdst nbytes, i = .b2w bsrc wdst nbytes ∧ nbytes.toNat % 4 ≠ 0 := by
  cases i <;> simp [breaksLength]

theorem breaksParam_iff {i : Instr} :
    breaksParam i = true ↔ ∃ xaddr yaddr r, i = .bmix xaddr yaddr r ∧ r.toNat = 0 := by
  cases i <;> simp [breaksParam]

/-- Only B2W has a length precondition, and it has no parameter with a domain (60_exceptions R202, R203). -/
theorem breaksLength_of_breaksParam {i : Instr} (h : breaksParam i = true) : breaksLength i = false := by
  obtain ⟨xaddr, yaddr, r, rfl, -⟩ := breaksParam_iff.mp h
  rfl

/-- Only B2W has a length precondition, and it has no overlap check (60_exceptions R202, R205). -/
theorem breaksLength_of_unsupportedOverlap {i : Instr} (h : unsupportedOverlap i = true) : breaksLength i = false := by
  cases i with
  | b2w bsrc wdst nbytes => exact absurd h Bool.false_ne_true
  | w2b | copy | xor | salsa | bmix => rfl

/-! ### When a command raises a fault -/

theorem FaultCode.code_injective : Function.Injective FaultCode.code := by
  intro f g
  cases f <;> cases g <;> decide

/-- On a block that has not faulted, a command leaves the state of a fault exactly when its checks find that fault. -/
theorem exec_eq_faulted_iff {i : Instr} {s : State} {f : FaultCode} (h : s.err = 0) :
    exec i s = .next (faulted s f.code.toNat (encode i)) ↔ checkInstr s.cfg i = some f := by
  rw [← State.raiseFault_eq_faulted]
  refine ⟨fun he => ?_, exec_fault h⟩
  obtain ⟨herr, -⟩ | ⟨-, g, hg, heg⟩ | ⟨-, -, hok⟩ := exec_cases i s
  · exact absurd h herr
  · have hstate := Host.Outcome.next.inj (heg.symm.trans he)
    have hcode : g.code = f.code := Reply.response.inj (congrArg State.reply hstate)
    rw [hg, FaultCode.code_injective hcode]
  · have herr : s.err = f.code.setWidth 32 :=
      (bodyOf_sameControl i s).err.symm.trans (congrArg State.err (Host.Outcome.next.inj (hok.symm.trans he)))
    exact absurd (herr.symm.trans h) f.code_setWidth_ne_zero

/-- Settles O14: the length is the first check, and only B2W has one. -/
theorem lengthFaultExactlyWhen : Obligations.LengthFaultExactlyWhen := fun _ _ herr =>
  (exec_eq_faulted_iff (f := .length) herr).trans (checkInstr_eq_length_iff.trans breaksLength_iff)

/-- Settles O15: no command has both a length and a parameter check, so the parameter decides alone. -/
theorem paramFaultExactlyWhen : Obligations.ParamFaultExactlyWhen := by
  intro s i herr
  refine (exec_eq_faulted_iff (f := .param) herr).trans ?_
  rw [checkInstr_eq_param_iff, and_iff_right_of_imp breaksLength_of_breaksParam, breaksParam_iff]

/-- Settles O16: the range check comes after the length and the parameter. -/
theorem rangeFaultExactlyWhen : Obligations.RangeFaultExactlyWhen := fun _ _ herr =>
  (exec_eq_faulted_iff (f := .range) herr).trans checkInstr_eq_range_iff

/-- Settles O17: the overlap check is the last, and no command that has one has a length check. -/
theorem overlapFaultExactlyWhen : Obligations.OverlapFaultExactlyWhen := by
  intro s i herr
  refine (exec_eq_faulted_iff (f := .overlap) herr).trans ?_
  rw [checkInstr_eq_overlap_iff, and_iff_right_of_imp]
  rintro ⟨-, -, hover⟩
  exact breaksLength_of_unsupportedOverlap hover

/-! ### The whole order -/

/-- Lines 3 to 7 of R207: the first check that fails decides. -/
theorem exec_in_check_order {s : State} (h : s.err = 0) (i : Instr) :
    exec i s =
      if breaksLength i then .next (faulted s 2 (encode i))
      else if breaksParam i then .next (faulted s 3 (encode i))
      else if outOfRange s.cfg i then .next (faulted s 4 (encode i))
      else if unsupportedOverlap i then .next (faulted s 5 (encode i))
      else exec i s := by
  split_ifs with hlen hparam hrange hover
  · exact exec_of_breaksLength h hlen
  · exact exec_of_breaksParam h (eq_false_of_ne_true hlen) hparam
  · exact exec_of_outOfRange h (eq_false_of_ne_true hlen) (eq_false_of_ne_true hparam) hrange
  · exact exec_of_unsupportedOverlap h (eq_false_of_ne_true hlen) (eq_false_of_ne_true hparam)
      (eq_false_of_ne_true hrange) hover
  · rfl

/-- Settles O13: the lock and the decoder come first, then the command's own checks in their order; a command that
passes them all answers OK and touches neither status register. -/
theorem issueAnswersInCheckOrder : Obligations.IssueAnswersInCheckOrder := by
  intro s cmd rest hm
  refine ⟨?_, fun i herr hd hlen hparam hrange hover => ?_⟩
  · split_ifs with herr
    · exact lockedBlockAnswersLocked s cmd rest herr hm
    · rw [ne_eq, not_not] at herr
      cases hd : decode cmd with
      | error e => exact step_of_illegal herr hm hd
      | ok i =>
        rw [stepRunsTheIssuedCommand s cmd rest i hm hd, ← encode_of_decode hd]
        exact exec_in_check_order (s := { s with host := rest }) herr i
  · have hc : checkInstr s.cfg i = none := checkInstr_eq_none_iff.mpr ⟨hlen, hparam, hrange, hover⟩
    have hcontrol := bodyOf_sameControl i { s with host := rest }
    exact ⟨_, (stepRunsTheIssuedCommand s cmd rest i hm hd).trans (exec_ok (s := { s with host := rest }) herr hc), rfl,
      hcontrol.err.trans herr, hcontrol.errcmd⟩

end Sys2Proof.Machine
end

section
/-! PROOFS. The answer to a command and to an `Issue`, and the status registers beside it (60_exceptions R200, R206,
R208). -/

namespace Sys2Proof.Machine

/-! ### The fault codes (60_exceptions R200) -/

theorem FaultCode.one_le_code_toNat (f : FaultCode) : 1 ≤ f.code.toNat := by
  cases f <;> decide

theorem FaultCode.code_toNat_le_five (f : FaultCode) : f.code.toNat ≤ 5 := by
  cases f <;> decide

theorem FaultCode.code_ne_okCode (f : FaultCode) : f.code ≠ okCode := by
  cases f <;> decide

/-! ### The response of a command -/

/-- The response that the sizes, `ERR` and the command decide (60_exceptions R200, R207). -/
def answerCode (cfg : Config) (err : BitVec 32) (i : Instr) : BitVec 4 :=
  if err ≠ 0 then lockedCode else ((checkInstr cfg i).map FaultCode.code).getD okCode

theorem answerCode_of_locked {err : BitVec 32} (h : err ≠ 0) (cfg : Config) (i : Instr) :
    answerCode cfg err i = lockedCode :=
  if_pos h

theorem answerCode_of_check {cfg : Config} {i : Instr} {found : Option FaultCode} (h : checkInstr cfg i = found) :
    answerCode cfg 0 i = (found.map FaultCode.code).getD okCode := by
  simp [answerCode, h]

theorem answerCode_toNat_le_six (cfg : Config) (err : BitVec 32) (i : Instr) : (answerCode cfg err i).toNat ≤ 6 := by
  by_cases herr : err = 0
  · subst herr
    cases hc : checkInstr cfg i with
    | none => rw [answerCode_of_check hc]; decide
    | some f => rw [answerCode_of_check hc]; exact f.code_toNat_le_five.trans (by decide)
  · rw [answerCode_of_locked herr]
    decide

theorem exec_reply {i : Instr} {s t : State} (h : exec i s = .next t) :
    t.reply = .response (answerCode s.cfg s.err i) := by
  obtain ⟨herr, he⟩ | ⟨herr, f, hf, he⟩ | ⟨herr, hc, he⟩ := exec_cases i s
  all_goals
    rw [he] at h
    cases h
  · rw [answerCode_of_locked herr, State.respond_reply]
  · rw [herr, answerCode_of_check hf, State.raiseFault_reply]
    rfl
  · rw [herr, answerCode_of_check hc, State.respond_reply]
    rfl

/-- Settles O40: every command goes on, and its response is one of the seven codes. -/
theorem everyCommandAnswers : Obligations.EveryCommandAnswers := by
  intro i s
  obtain ⟨t, ht⟩ := exec_goes_on i s
  exact ⟨t, _, ht, exec_reply ht, answerCode_toNat_le_six _ _ _⟩

/-- Settles O46: the response is a function of the sizes, `ERR` and the command. -/
theorem responseDecidedWithoutData : Obligations.ResponseDecidedWithoutData := by
  intro i s s' t t' hcfg herr h h'
  rw [exec_reply h, exec_reply h', hcfg, herr]

/-! ### The end of an `Issue` -/

/-- The three ways an `Issue` ends: the block is locked, the word has a fault, or its command executes (60_exceptions
R206, R208, R207). -/
theorem issue_ends {cmd : Command} {s t : State} (h : issue cmd s = .next t) :
    (s.err ≠ 0 ∧ t = s.respond lockedCode) ∨
    (s.err = 0 ∧ ∃ f, faultOf s.cfg cmd = some f ∧ t = s.raiseFault f cmd) ∨
    (s.err = 0 ∧ ∃ i, decode cmd = .ok i ∧ checkInstr s.cfg i = none ∧ t = (bodyOf i s).respond okCode) := by
  obtain ⟨herr, he⟩ | ⟨herr, ⟨e, hd⟩, he⟩ | ⟨herr, i, hd, he⟩ := issue_cases cmd s
  all_goals rw [he] at h
  · exact .inl ⟨herr, (Host.Outcome.next.inj h).symm⟩
  · exact .inr (.inl ⟨herr, .illegal, faultOf_of_illegal hd s.cfg, (Host.Outcome.next.inj h).symm⟩)
  · obtain rfl := encode_of_decode hd
    obtain ⟨hlocked, -⟩ | ⟨-, f, hf, he⟩ | ⟨-, hc, he⟩ := exec_cases i s
    · exact absurd herr hlocked
    · exact .inr (.inl ⟨herr, f, (faultOf_encode s.cfg i).trans hf, Host.Outcome.next.inj (h.symm.trans he)⟩)
    · exact .inr (.inr ⟨herr, i, hd, hc, Host.Outcome.next.inj (h.symm.trans he)⟩)

/-- An `Issue` answers some response, which is OK exactly when it leaves `ERR` 0. -/
theorem issue_reply {cmd : Command} {s t : State} (h : issue cmd s = .next t) :
    ∃ code, t.reply = .response code ∧ (code = okCode ↔ t.err = 0) := by
  obtain ⟨herr, rfl⟩ | ⟨-, f, -, rfl⟩ | ⟨herr, i, -, -, rfl⟩ := issue_ends h
  · exact ⟨lockedCode, rfl, iff_of_false (by decide) herr⟩
  · exact ⟨f.code, rfl, iff_of_false f.code_ne_okCode f.code_setWidth_ne_zero⟩
  · exact ⟨okCode, rfl, iff_of_true rfl ((bodyOf_sameControl i s).err.trans herr)⟩

/-- Settles O18: an `Issue` that leaves `ERR` nonzero on an unfaulted block ended in a fault. -/
theorem faultChangesOnlyTheStatusRegisters : Obligations.FaultChangesOnlyTheStatusRegisters := by
  intro s t cmd rest hm h
  refine ⟨fun herr hfault => ?_, fun herr => errorStaysUntilReset s t herr (by simp [hm]) h⟩
  rw [step_of_move hm] at h
  obtain ⟨hlocked, -⟩ | ⟨-, f, -, rfl⟩ | ⟨-, i, -, -, rfl⟩ := issue_ends h
  · exact absurd herr hlocked
  · exact ⟨f.code.toNat, f.one_le_code_toNat, f.code_toNat_le_five, State.raiseFault_eq_faulted _ f cmd⟩
  · exact absurd ((bodyOf_sameControl i { s with host := rest }).err.trans herr) hfault

/-- Settles O20: the step is the `Issue`. -/
theorem responseOkExactlyWhenNoError : Obligations.ResponseOkExactlyWhenNoError := by
  intro s t cmd rest hm h
  rw [step_of_move hm] at h
  obtain ⟨code, hreply, hcode⟩ := issue_reply h
  rw [hreply, Reply.response.injEq]
  exact hcode

end Sys2Proof.Machine
end

section
/-! PROOFS. Runs without a Reset (70_reset_and_hazards R244): a response other than OK comes with `ERR` nonzero, and
`ERR` nonzero stays to the end of the run (60_exceptions R208, R210). -/

namespace Sys2Proof.Machine

/-! ### Runs -/

theorem goodRun_succ_of_step {s u : State} (h : step s = .next u) (k : Nat) :
    goodRun (k + 1) s = (u.reply.okOrSilent && goodRun k u) := by
  simp only [goodRun, h]

/-- A run that ends took its first step. -/
theorem run_succ_next {k : Nat} {s t : State} (h : core.run (k + 1) s = .next t) :
    ∃ u, step s = .next u ∧ core.run k u = .next t := by
  simp only [Host.Core.run] at h
  split at h
  · next u hu => exact ⟨u, hu, h⟩
  · cases h
  · cases h

/-- Whatever every step keeps, a run keeps. -/
theorem run_keeps {P : State → Prop} (hstep : ∀ s t, P s → step s = .next t → P t) {k : Nat} {s t : State} (hs : P s)
    (h : core.run k s = .next t) : P t := by
  induction k generalizing s with
  | zero => cases h; exact hs
  | succ k ih =>
    obtain ⟨u, hu, hrun⟩ := run_succ_next h
    exact ih (hstep s u hs hu) hrun

/-! ### The pending moves -/

theorem issue_keeps_host {cmd : Command} {s t : State} (h : issue cmd s = .next t) : t.host = s.host := by
  obtain ⟨-, rfl⟩ | ⟨-, f, -, rfl⟩ | ⟨-, i, -, -, rfl⟩ := issue_ends h
  · rfl
  · rfl
  · exact (bodyOf_sameControl i s).host

theorem runMove_keeps_host {m : HostMove} {s t : State} (h : runMove m s = .next t) : t.host = s.host := by
  cases m with
  | wrW a v => obtain ⟨-, rfl⟩ := hostWrW_next.mp h; rfl
  | rdW a => obtain ⟨-, rfl⟩ := hostRdW_next.mp h; rfl
  | wrB a v => obtain ⟨-, rfl⟩ := hostWrB_next.mp h; rfl
  | rdB a => obtain ⟨-, rfl⟩ := hostRdB_next.mp h; rfl
  | rdCsr n => cases h; rfl
  | issue cmd => exact issue_keeps_host h
  | reset => cases h; rfl

/-- A step takes the first pending move off the list, when there is one. -/
theorem step_host {s t : State} (h : step s = .next t) : t.host = s.host.tail := by
  cases hm : s.host with
  | nil =>
    rw [step_of_idle hm] at h
    cases h
    exact hm
  | cons m rest =>
    rw [step_of_move hm] at h
    exact runMove_keeps_host (s := { s with host := rest }) h

theorem step_keeps_resetFree {s t : State} (hs : HostMove.reset ∉ s.host) (h : step s = .next t) :
    HostMove.reset ∉ t.host := by
  rw [step_host h]
  exact fun hmem => hs (List.mem_of_mem_tail hmem)

theorem run_keeps_err_ne_zero {k : Nat} {s t : State} (herr : s.err ≠ 0) (hreset : HostMove.reset ∉ s.host)
    (h : core.run k s = .next t) : t.err ≠ 0 := by
  refine (run_keeps (P := fun s => s.err ≠ 0 ∧ HostMove.reset ∉ s.host) ?_ ⟨herr, hreset⟩ h).1
  rintro s t ⟨herr, hreset⟩ hstep
  have hhead : s.host.head? ≠ some .reset := fun hhead => hreset (List.mem_of_head? hhead)
  exact ⟨(errorStaysUntilReset s t herr hhead hstep).1 ▸ herr, step_keeps_resetFree hreset hstep⟩

/-! ### Good runs -/

/-- On a block that has not faulted only an `Issue` can answer a response other than OK or leave `ERR` nonzero, and it
does both or neither. -/
theorem runMove_okOrSilent_iff {m : HostMove} {s t : State} (herr : s.err = 0) (h : runMove m s = .next t) :
    t.reply.okOrSilent = true ↔ t.err = 0 := by
  cases m with
  | wrW a v => obtain ⟨-, rfl⟩ := hostWrW_next.mp h; exact iff_of_true rfl herr
  | rdW a => obtain ⟨-, rfl⟩ := hostRdW_next.mp h; exact iff_of_true rfl herr
  | wrB a v => obtain ⟨-, rfl⟩ := hostWrB_next.mp h; exact iff_of_true rfl herr
  | rdB a => obtain ⟨-, rfl⟩ := hostRdB_next.mp h; exact iff_of_true rfl herr
  | rdCsr n => cases h; exact iff_of_true rfl herr
  | issue cmd =>
    obtain ⟨code, hreply, hcode⟩ := issue_reply h
    rw [hreply, Reply.okOrSilent, beq_iff_eq, hcode]
  | reset => cases h; exact iff_of_true rfl rfl

theorem step_okOrSilent_iff {s t : State} (herr : s.err = 0) (hreply : s.reply.okOrSilent = true)
    (h : step s = .next t) : t.reply.okOrSilent = true ↔ t.err = 0 := by
  cases hm : s.host with
  | nil =>
    rw [step_of_idle hm] at h
    cases h
    exact iff_of_true hreply herr
  | cons m rest =>
    rw [step_of_move hm] at h
    exact runMove_okOrSilent_iff (s := { s with host := rest }) herr h

/-- Settles O48: as long as every response is OK, `ERR` is 0; the first other response leaves it nonzero for good. -/
theorem goodRunEndsWithoutError : Obligations.GoodRunEndsWithoutError := by
  intro k s t herr hreply hreset h
  induction k generalizing s with
  | zero => cases h; exact iff_of_true rfl herr
  | succ k ih =>
    obtain ⟨u, hu, hrun⟩ := run_succ_next h
    have hok := step_okOrSilent_iff herr hreply hu
    have hreset' := step_keeps_resetFree hreset hu
    rw [goodRun_succ_of_step hu, Bool.and_eq_true]
    by_cases huerr : u.err = 0
    · have hureply := hok.mpr huerr
      rw [and_iff_right hureply]
      exact ih u huerr hureply hreset' hrun
    · exact iff_of_false (fun hgood => huerr (hok.mp hgood.1)) (run_keeps_err_ne_zero huerr hreset' hrun)

end Sys2Proof.Machine
end

section
/-! PROOFS. The host's Reset (70_reset_and_hazards R230, R231). -/

namespace Sys2Proof.Machine

theorem step_of_reset {s : State} {rest : List HostMove} (h : s.host = .reset :: rest) :
    step s = .next ({ s with host := rest } : State).hostReset :=
  step_of_move h

/-- Settles O53: the step is `State.hostReset`, which leaves both memories empty, so no cell of them is written. -/
theorem resetClearsTheBlock : Obligations.ResetClearsTheBlock := fun _ _ hm =>
  ⟨_, step_of_reset hm, State.hostReset_err _, State.hostReset_errcmd _, Memory.read_nil, Memory.read_nil,
    State.hostReset_reply _, State.hostReset_host _, State.hostReset_cfg _⟩

end Sys2Proof.Machine
end
